-- ==== Sys2Proof/Word.lean ====
section
/-! DEFINITION. The word types of the machine (00_scope.md R5 and R7): everything is unsigned. -/

namespace Sys2Proof

/-- An 8-bit value: a V register, a timer, a byte of memory, the immediate `kk`. -/
abbrev Byte := BitVec 8

/-- A 16-bit value: I, PC, a stack entry, an opcode. -/
abbrev Word := BitVec 16

/-- A 12-bit address immediate `nnn` (R71). -/
abbrev Addr12 := BitVec 12

/-- The number of a V register (R20): VA is 10, VF is 15. -/
abbrev Reg := Fin 16

/-- The sprite height `n` of DRW, 0 to 15 (R73). -/
abbrev Height := Fin 16

end Sys2Proof
end

