-- ==== Sys2Proof/WellFormed.lean ====
section
/-! DEFINITION. Which instructions have an encoding: the operand ranges are in the types; the one further
check is on SYS (30_encoding.md R74, opcode_table.json "exclude"). -/

namespace Sys2Proof

/-- The operand of SYS: `0nnn` with `nnn` other than 0x0E0 (CLS) and 0x0EE (RET), R74 row 1. -/
def sysOperandOk (nnn : Addr12) : Bool := nnn != 0x0E0 && nnn != 0x0EE

/-- `i` is an instruction of the opcode table. -/
def Instr.wf : Instr → Bool
  | .sys nnn => sysOperandOk nnn
  | .cls | .ret | .jp _ | .call _ | .jpV0 _ | .ldI _ => true
  | .seByte _ _ | .sneByte _ _ | .ldByte _ _ | .addByte _ _ | .rnd _ _ => true
  | .seReg _ _ | .sneReg _ _ | .ldReg _ _ | .orReg _ _ | .andReg _ _ | .xorReg _ _ => true
  | .addReg _ _ | .sub _ _ | .shr _ _ | .subn _ _ | .shl _ _ => true
  | .drw _ _ _ => true
  | .skp _ | .sknp _ | .ldVxDT _ | .ldVxK _ | .ldDTVx _ | .ldSTVx _ | .addI _ => true
  | .ldF _ | .ldB _ | .storeRegs _ | .loadRegs _ => true

end Sys2Proof
end

