-- ==== Sys2Proof/Config.lean ====
section
/-! DEFINITION. The parameters of the block (00_scope.md R5) and the one free value. -/

namespace Sys2Proof

/-- `MEM_SIZE`: addresses 0 to 4095 exist (R5, R50). -/
def Config.memSize : Nat := 4096

/-- `PROGRAM_ORIGIN`: the default origin of `load` and the entry point (R5, R57). -/
def Config.programOrigin : Nat := 0x200

/-- `STACK_DEPTH`, at the spec's default (R5, R24; assumption 18). -/
def Config.stackDepth : Nat := 16

/-- `FONT_BASE`, at the spec's default (R5, R58; assumption 18). -/
def Config.fontBase : Nat := 0x000

/-- `FONT_GLYPH_BYTES`: bytes of one glyph (R5, R58). -/
def Config.fontGlyphBytes : Nat := 5

/-- `STRICT` unless the host chooses it: permissive (R5, R36). -/
def Config.strictDefault : Bool := false

/-- The byte that the `n`-th executed RND draws (42_load_and_arithmetic.md R123): a FREE VALUE. It has no
body a proof can use; `State.draws` counts the draws (assumption 3). -/
opaque Config.randByte : Nat → Byte

end Sys2Proof
end

