-- ==== Sys2Proof/Machine/State.lean ====
section
/-! DEFINITION. The state of the block as plain data (10_state.md), the fault taxonomy (60_exceptions.md R170)
and the state right after reset (R36). -/

namespace Sys2Proof.Machine

/-- Which of the two stack errors (R172). -/
inductive StackError where
  /-- CALL with a full stack (R93). -/
  | overflow
  /-- RET with an empty stack (R91). -/
  | underflow
  deriving DecidableEq, Repr

/-- The closed error taxonomy of R170. The first three are recorded in `State.halt` by a faulting step, which is
a NEXT state (R177, assumption 1): an engine step never answers `Outcome.fault`. Only the host action `load` answers it. -/
inductive Fault where
  /-- Raised by fetch, DRW, LD B, LD [I] and LD Vx,[I] on an address above 4095 (R171). Safe: the spec's own fault. -/
  | outOfBounds (addr : Nat)
  /-- Raised by CALL on a full stack and by RET on an empty one (R172). Safe: the spec's own fault. -/
  | stackFault (which : StackError)
  /-- Raised by an Unknown opcode in strict mode (R173). Safe: the spec's own fault. -/
  | unknownOpcode (bits : Word)
  /-- Answered by the host action `load` when the bytes do not fit (R174, R201); never recorded in `halt`.
  Safe: the spec's own error. -/
  | romTooLarge
  deriving DecidableEq, Repr

/-- Reasons to give an instruction no meaning. None is ever answered: every instruction is modelled. -/
inductive Refusal where
  /-- Kept for the interface; raised by nothing. Safe. -/
  | notModelled (mnemonic : String)
  deriving DecidableEq, Repr

/-- Memory as the list of (address, byte) pairs that differ from the reset contents, in the canonical form
`Memory.wf` of Ops.lean (20_memory.md R50; assumption 8). -/
abbrev Memory := List Host.Cell

/-- The framebuffer (R28): 32 rows of 64 bits, bit `x` of row `y` being `fb[y][x]` (R34; assumption 7). -/
abbrev Framebuffer := Vector (BitVec 64) 32

/-- The output events of R34. They are not machine state (R35); `State.events` records them (assumption 6). -/
inductive Event where
  /-- Raised once by every executed CLS and non-faulting DRW (R132), with the framebuffer the display collaborator
  then sees (R35). -/
  | present (shown : Framebuffer)
  /-- An Unknown opcode was passed over in permissive mode (R173, R186). -/
  | warn (bits : Word)
  /-- A `load` signalled RomTooLarge (R34, R201). -/
  | loadError
  deriving DecidableEq, Repr

/-- One atomic action of one of the three agents of 00_scope.md R6. -/
inductive Action where
  /-- The Execution Engine: one fetch, decode, execute cycle (R80). -/
  | step
  /-- The Timer/Clock Driver (R180). -/
  | tick
  /-- The host writes the keypad (R144). -/
  | setKeys (keys : BitVec 16)
  /-- The host resets the block (R200). -/
  | reset
  /-- The host chooses the Unknown policy (R202 step 2): offered between `reset` and the first step only (R31). -/
  | setStrict (b : Bool)
  /-- The host loads bytes into memory, at 0x200 unless it names another origin: offered between `reset` and the first
  step only (R201). -/
  | load (bytes : List Byte) (origin : Nat := Config.programOrigin)
  deriving DecidableEq, Repr

/-- Where the block is between one `reset` and the next (R201, R202, R208): what decides whether `load` and the choice
of STRICT are offered (assumption 14). -/
inductive Phase where
  /-- After `reset`, before the first step. -/
  | booting
  /-- From the first step on. -/
  | running
  deriving DecidableEq, Repr

/-- Everything the spec gives the machine (10_state.md R20 to R30), then STRICT, then the model's own bookkeeping. -/
structure State where
  /-- V0 to VF (R20). -/
  v : Vector Byte 16
  /-- The index register I (R22). -/
  i : Word
  /-- The program counter (R23). -/
  pc : Word
  /-- The call stack, newest entry first (R24; assumption 9). -/
  stack : List Word
  /-- The delay timer DT (R25). -/
  dt : Byte
  /-- The sound timer ST (R26). -/
  st : Byte
  /-- Memory (R27). -/
  mem : Memory
  /-- The framebuffer (R28). -/
  fb : Framebuffer
  /-- The keypad, bit `k` being key `k` (R29, R34). -/
  key : BitVec 16
  /-- The halt status: none, or the fault that stopped the block (R30). -/
  halt : Option Fault
  /-- STRICT, the Unknown policy: an input that is constant during a run (R31; assumption 4). -/
  strict : Bool
  /-- Whether a step has been performed since the last `reset` (R201, R202; assumption 14). -/
  phase : Phase
  /-- The history of the output events, oldest first: the model's own (R35; assumption 6). -/
  events : List Event
  /-- How many bytes RND has drawn: the model's own (R123; assumption 3). -/
  draws : Nat
  /-- The agents' actions still to come, the next one first; with none the engine steps: the model's own
  (R181; assumption 2). -/
  agenda : List Action
  deriving DecidableEq, Repr

/-- The outcome of an instruction or an action. -/
abbrev Result := Host.Outcome State Fault Refusal

/-- The state after reset and before any load (R36): `mem` lists nothing, so memory reads as its reset contents.
`key` has no reset value in the spec (assumption 5); `events`, `draws` and `agenda` are the model's own. -/
def State.reset : State where
  v := Vector.replicate 16 0
  i := 0
  pc := 0x0200
  stack := []
  dt := 0
  st := 0
  mem := []
  fb := Vector.replicate 32 0
  key := 0
  halt := none
  strict := Config.strictDefault
  phase := .booting
  events := []
  draws := 0
  agenda := []

end Sys2Proof.Machine
end

