-- ==== Sys2Proof/Machine/Ops.lean ====
section
/-! DEFINITION. The named operations over memory, registers, stack, framebuffer and program counter, and fault
entry (00_scope.md R8; 10_state.md; 20_memory.md; 60_exceptions.md R177). -/

namespace Sys2Proof.Machine

/-! ## Memory -/

/-- The built-in font, glyph by glyph (R58). -/
def fontBytes : List Byte :=
  [0xF0, 0x90, 0x90, 0x90, 0xF0,  0x20, 0x60, 0x20, 0x20, 0x70,
   0xF0, 0x10, 0xF0, 0x80, 0xF0,  0xF0, 0x10, 0xF0, 0x10, 0xF0] ++
  [0x90, 0x90, 0xF0, 0x10, 0x10,  0xF0, 0x80, 0xF0, 0x10, 0xF0,
   0xF0, 0x80, 0xF0, 0x90, 0xF0,  0xF0, 0x10, 0x20, 0x40, 0x40] ++
  [0xF0, 0x90, 0xF0, 0x90, 0xF0,  0xF0, 0x90, 0xF0, 0x10, 0xF0,
   0xF0, 0x90, 0xF0, 0x90, 0x90,  0xE0, 0x90, 0xE0, 0x90, 0xE0] ++
  [0xF0, 0x80, 0x80, 0x80, 0xF0,  0xE0, 0x90, 0x90, 0x90, 0xE0,
   0xF0, 0x80, 0xF0, 0x80, 0xF0,  0xF0, 0x80, 0xF0, 0x80, 0x80]

/-- What an unlisted address reads as: the reset contents of memory, the font from FONT_BASE and 0x00 everywhere
else (R36, R58; assumption 8). -/
def background (a : Nat) : Byte :=
  if a < Config.fontBase then 0 else fontBytes.getD (a - Config.fontBase) 0

/-- The byte `mem[a]`, for an `a` in range. -/
def Memory.peek : Memory → Nat → Byte
  | [], a => background a
  | (k, b) :: rest, a => if k = a then b else Memory.peek rest a

/-- The cell of address `a` in front of `rest`, listed only where it differs from the reset contents. -/
def Memory.consCell (a : Nat) (b : Byte) (rest : Memory) : Memory :=
  if b = background a then rest else (a, b) :: rest

/-- `mem[a]` becomes `b` and no other byte changes, for an `a` in range; the canonical form is kept. -/
def Memory.poke : Memory → Nat → Byte → Memory
  | [], a, b => Memory.consCell a b []
  | (k, c) :: rest, a, b =>
    if a < k then Memory.consCell a b ((k, c) :: rest)
    else if a = k then Memory.consCell a b rest
    else (k, c) :: Memory.poke rest a b

/-- The canonical form from address `lo` on: addresses strictly rising, in range, no byte equal to what the
unlisted address reads as. -/
def Memory.wfFrom : Nat → Memory → Bool
  | _, [] => true
  | lo, (k, b) :: rest =>
    decide (lo ≤ k) && decide (k < Config.memSize) && decide (b ≠ background k) && Memory.wfFrom (k + 1) rest

/-- The canonical form of memory. -/
def Memory.wf (m : Memory) : Bool := Memory.wfFrom 0 m

/-- `MemRead(addr, 1)` (R51). -/
def memRead (m : Memory) (a : Nat) : Except Fault Byte :=
  if a < Config.memSize then .ok (m.peek a) else .error (.outOfBounds a)

/-- `MemWrite(addr, 1, v)` (R52). -/
def memWrite (m : Memory) (a : Nat) (b : Byte) : Except Fault Memory :=
  if a < Config.memSize then .ok (m.poke a b) else .error (.outOfBounds a)

/-- The range check of the `n` addresses from `a` upward, in ascending order (R161, R162, R171). -/
def checkSpan (a : Nat) : Nat → Except Fault Unit
  | 0 => .ok ()
  | n + 1 => if a < Config.memSize then checkSpan (a + 1) n else .error (.outOfBounds a)

/-- The `n` bytes from `a` upward, read in ascending order (R131, R163). -/
def readBlock (m : Memory) (a : Nat) : Nat → Except Fault (List Byte)
  | 0 => .ok []
  | n + 1 =>
    match memRead m a with
    | .error f => .error f
    | .ok b =>
      match readBlock m (a + 1) n with
      | .error f => .error f
      | .ok bs => .ok (b :: bs)

/-- The bytes `bs` written from `a` upward, one `MemWrite` after another. -/
def writeBlock (m : Memory) (a : Nat) : List Byte → Except Fault Memory
  | [] => .ok m
  | b :: bs =>
    match memWrite m a b with
    | .error f => .error f
    | .ok m' => writeBlock m' (a + 1) bs

/-- A multi-byte store: every address is checked before the first byte is written (R56, R161, R162). -/
def storeBlock (m : Memory) (a : Nat) (bs : List Byte) : Except Fault Memory :=
  match checkSpan a bs.length with
  | .error f => .error f
  | .ok _ => writeBlock m a bs

/-- `MemRead(addr, 2)`, used by fetch only: the byte at the lower address is read first and is the high half
(R8, R54, R80). -/
def memReadWord (m : Memory) (a : Nat) : Except Fault Word :=
  match memRead m a with
  | .error f => .error f
  | .ok hi =>
    match memRead m (a + 1) with
    | .error f => .error f
    | .ok lo => .ok (wordOfBytes hi lo)

/-! ## Registers and single fields -/

/-- The number of VF (R20, R21). -/
def vf : Reg := 15

/-- `V[r]` (R8, R20). -/
def State.reg (s : State) (r : Reg) : Byte := s.v[r.val]

/-- `V[r] <- b` (R8, R20). -/
def State.setReg (s : State) (r : Reg) (b : Byte) : State := { s with v := s.v.set r.val b }

/-- `I <- w` (R22). -/
def State.setI (s : State) (w : Word) : State := { s with i := w }

/-- `pc <- w` (R23). -/
def State.setPc (s : State) (w : Word) : State := { s with pc := w }

/-- The stack replaced (R24). -/
def State.setStack (s : State) (k : List Word) : State := { s with stack := k }

/-- `DT <- b` (R25). -/
def State.setDt (s : State) (b : Byte) : State := { s with dt := b }

/-- `ST <- b` (R26). -/
def State.setSt (s : State) (b : Byte) : State := { s with st := b }

/-- Memory replaced (R27). -/
def State.setMem (s : State) (m : Memory) : State := { s with mem := m }

/-- The framebuffer replaced (R28). -/
def State.setFb (s : State) (f : Framebuffer) : State := { s with fb := f }

/-- The keypad replaced (R144). -/
def State.setKey (s : State) (k : BitVec 16) : State := { s with key := k }

/-- `halt <- h` (R30). -/
def State.setHalt (s : State) (h : Option Fault) : State := { s with halt := h }

/-- STRICT chosen (R31). -/
def State.setStrict (s : State) (b : Bool) : State := { s with strict := b }

/-- The phase replaced (R201, R202). -/
def State.setPhase (s : State) (p : Phase) : State := { s with phase := p }

/-- An output event raised (R34). -/
def State.emit (s : State) (e : Event) : State := { s with events := s.events ++ [e] }

/-- One more byte drawn (R123). -/
def State.countDraw (s : State) : State := { s with draws := s.draws + 1 }

/-- The agenda replaced (assumption 2). -/
def State.setAgenda (s : State) (g : List Action) : State := { s with agenda := g }

/-- The registers from number `k` on become `bs` (R163). -/
def State.setRegsFrom (s : State) (k : Nat) : List Byte → State
  | [] => s
  | b :: bs => State.setRegsFrom (s.setReg (Fin.ofNat 16 k) b) (k + 1) bs

/-! ## Program counter -/

/-- `next`, the address of the following instruction (R8). -/
def State.nextPc (s : State) : Word := s.pc + 2

/-- `skip`, the address after the following instruction (R8). -/
def State.skipPc (s : State) : Word := s.pc + 4

/-- `pc <- next` (R81). -/
def State.advance (s : State) : State := s.setPc s.nextPc

/-- `if c then pc <- skip else pc <- next` (R81). -/
def State.skipIf (s : State) (c : Bool) : State := s.setPc (if c then s.skipPc else s.nextPc)

/-! ## Call stack -/

/-- `push(v)`: the new stack, or the overflow (R24). -/
def push (k : List Word) (w : Word) : Except Fault (List Word) :=
  if k.length < Config.stackDepth then .ok (w :: k) else .error (.stackFault .overflow)

/-- `pop()`: the newest entry and the rest, or the underflow (R24). -/
def pop : List Word → Except Fault (Word × List Word)
  | [] => .error (.stackFault .underflow)
  | w :: k => .ok (w, k)

/-! ## Framebuffer -/

/-- `fb[y][x]` (R28). -/
def Framebuffer.pixel (f : Framebuffer) (x : Fin 64) (y : Fin 32) : Bool := f[y.val].getLsbD x.val

/-- `fb[y][x] <- fb[y][x] ^ 1` (R131). -/
def Framebuffer.flip (f : Framebuffer) (x : Fin 64) (y : Fin 32) : Framebuffer :=
  f.set y.val (f[y.val] ^^^ BitVec.twoPow 64 x.val)

/-- All 2048 pixels off (R130, R200). -/
def Framebuffer.clear : Framebuffer := Vector.replicate 32 0

/-! ## Fault entry -/

/-- Fault entry (R177), the one way an instruction or a fetch faults: `halt <- F(info)` and nothing else. Nothing
is saved, no handler is entered and PC does not move; the outcome is a next state (assumption 1). There is no return
from a fault: only the host's reset clears `halt` (R178). -/
def raise (f : Fault) (s : State) : Result := .next (s.setHalt (some f))

end Sys2Proof.Machine
end

