-- ==== Sys2Proof/Machine/Flags.lean ====
section
/-! DEFINITION. The 8-bit results and the flag each flag-setting instruction puts in VF (10_state.md R21;
42_load_and_arithmetic.md R116 to R120, R124, R125). -/

namespace Sys2Proof.Machine

/-- A flag as the byte VF receives: 1 or 0 (R21). -/
def flagByte (b : Bool) : Byte := if b then 1 else 0

/-- `(a + b) mod 256` (R111, R116). -/
def sum8 (a b : Byte) : Byte := BitVec.ofNat 8 (a.toNat + b.toNat)

/-- The carry of an addition: the sum exceeds 255 (R116). -/
def carryOut (a b : Byte) : Bool := decide (a.toNat + b.toNat > 255)

/-- `(a - b) mod 256` (R117, R119). -/
def diff8 (a b : Byte) : Byte := BitVec.ofInt 8 ((a.toNat : Int) - (b.toNat : Int))

/-- No borrow occurs in `a - b`: `a >= b` (R117, R119). -/
def noBorrow (a b : Byte) : Bool := decide (a.toNat ≥ b.toNat)

/-- `a >> 1` (R118). -/
def half (a : Byte) : Byte := a >>> 1

/-- The bit a right shift shifts out, `a[0]` (R118). -/
def bitOutRight (a : Byte) : Bool := a.getLsbD 0

/-- `(a << 1) mod 256` (R120). -/
def double (a : Byte) : Byte := a <<< 1

/-- The bit a left shift shifts out, `a[7]` (R120). -/
def bitOutLeft (a : Byte) : Bool := a.getLsbD 7

/-- The result goes to Vx and then the flag to VF, so that with `x = 15` the flag remains (R125). The operands were
read before: they are arguments. -/
def State.setRegAndFlag (s : State) (x : Reg) (b : Byte) (flag : Bool) : State :=
  (s.setReg x b).setReg vf (flagByte flag)

end Sys2Proof.Machine
end

