-- ==== Sys2Proof/Machine/Operands.lean ====
section
/-! DEFINITION. The operand forms: how an instruction turns its fields and the registers into the values it works
on (30_encoding.md R73; 44_keypad.md R143; 46_memory_block.md). -/

namespace Sys2Proof.Machine

/-- `zext_16(nnn)` (R73). -/
def zextAddr (nnn : Addr12) : Word := nnn.setWidth 16

/-- `zext_16(v)` of a byte (R73). -/
def zextByte (b : Byte) : Word := b.setWidth 16

/-- The low 4 bits of a byte, which select a key (R143) or a digit (R160). -/
def lowNibble (b : Byte) : Fin 16 := Fin.ofNat 16 b.toNat

/-- The state of the key a register's value selects (R140, R143). -/
def State.keyDown (s : State) (k : Fin 16) : Bool := s.key.getLsbD k.val

/-- The smallest key that is down, if any is (R142). -/
def State.lowestKey (s : State) : Option (Fin 16) := (List.finRange 16).find? (fun k => s.keyDown k)

/-- The address of the glyph of a digit: `FONT_BASE + 5 * d` (R160). -/
def glyphAddr (d : Fin 16) : Word := BitVec.ofNat 16 (Config.fontBase + Config.fontGlyphBytes * d.val)

/-- The three decimal digits of a byte, hundreds first (R161). -/
def bcdDigits (b : Byte) : List Byte :=
  [BitVec.ofNat 8 (b.toNat / 100), BitVec.ofNat 8 (b.toNat / 10 % 10), BitVec.ofNat 8 (b.toNat % 10)]

/-- How many registers a block move moves: V0 to Vx inclusive (R162, R163). -/
def blockCount (x : Reg) : Nat := x.val + 1

/-- V0 to Vx, in ascending order (R162). -/
def State.regsUpTo (s : State) (x : Reg) : List Byte :=
  (List.range (blockCount x)).map (fun k => s.reg (Fin.ofNat 16 k))

/-- The target of JP V0: `nnn + V0`, not reduced modulo 4096 (R94). -/
def offsetTarget (nnn : Addr12) (b : Byte) : Word := zextAddr nnn + zextByte b

end Sys2Proof.Machine
end

