-- ==== Sys2Proof/Machine/Arith.lean ====
section
/-! DEFINITION. Loads, arithmetic, logic, shifts, index and random (42_load_and_arithmetic.md R110 to R123). -/

namespace Sys2Proof.Machine

/-- LD Vx, byte (R110). -/
def execLdByte (x : Reg) (kk : Byte) (s : State) : Result := .next (s.setReg x kk).advance

/-- ADD Vx, byte (R111): VF is not written as a flag. -/
def execAddByte (x : Reg) (kk : Byte) (s : State) : Result := .next (s.setReg x (sum8 (s.reg x) kk)).advance

/-- LD Vx, Vy (R112). -/
def execLdReg (x y : Reg) (s : State) : Result := .next (s.setReg x (s.reg y)).advance

/-- OR Vx, Vy (R113): VF is not written as a flag. -/
def execOrReg (x y : Reg) (s : State) : Result := .next (s.setReg x (s.reg x ||| s.reg y)).advance

/-- AND Vx, Vy (R114): VF is not written as a flag. -/
def execAndReg (x y : Reg) (s : State) : Result := .next (s.setReg x (s.reg x &&& s.reg y)).advance

/-- XOR Vx, Vy (R115): VF is not written as a flag. -/
def execXorReg (x y : Reg) (s : State) : Result := .next (s.setReg x (s.reg x ^^^ s.reg y)).advance

/-- ADD Vx, Vy (R116): VF receives the carry. -/
def execAddReg (x y : Reg) (s : State) : Result :=
  .next (s.setRegAndFlag x (sum8 (s.reg x) (s.reg y)) (carryOut (s.reg x) (s.reg y))).advance

/-- SUB Vx, Vy (R117): VF is 1 when no borrow occurs. -/
def execSub (x y : Reg) (s : State) : Result :=
  .next (s.setRegAndFlag x (diff8 (s.reg x) (s.reg y)) (noBorrow (s.reg x) (s.reg y))).advance

/-- SHR Vx (R118): in place, the field y is ignored. -/
def execShr (x _y : Reg) (s : State) : Result :=
  .next (s.setRegAndFlag x (half (s.reg x)) (bitOutRight (s.reg x))).advance

/-- SUBN Vx, Vy (R119): Vy minus Vx into Vx. -/
def execSubn (x y : Reg) (s : State) : Result :=
  .next (s.setRegAndFlag x (diff8 (s.reg y) (s.reg x)) (noBorrow (s.reg y) (s.reg x))).advance

/-- SHL Vx (R120): in place, the field y is ignored. -/
def execShl (x _y : Reg) (s : State) : Result :=
  .next (s.setRegAndFlag x (double (s.reg x)) (bitOutLeft (s.reg x))).advance

/-- LD I, addr (R121). -/
def execLdI (nnn : Addr12) (s : State) : Result := .next (s.setI (zextAddr nnn)).advance

/-- ADD I, Vx (R122): modulo 65536, VF unchanged. -/
def execAddI (x : Reg) (s : State) : Result := .next (s.setI (s.i + zextByte (s.reg x))).advance

/-- RND Vx, byte (R123): a fresh free byte, masked by `kk`. -/
def execRnd (x : Reg) (kk : Byte) (s : State) : Result :=
  .next ((s.setReg x (Config.randByte s.draws &&& kk)).countDraw).advance

end Sys2Proof.Machine
end

