-- ==== Sys2Proof/Machine/Control.lean ====
section
/-! DEFINITION. Control transfer: SYS, RET, JP, CALL, JP V0 (40_control_flow.md R90 to R94). -/

namespace Sys2Proof.Machine

/-- SYS addr (R90): nothing but the advance of PC, in both modes. -/
def execSys (_nnn : Addr12) (s : State) : Result := .next s.advance

/-- RET (R91). -/
def execRet (s : State) : Result :=
  match pop s.stack with
  | .error f => raise f s
  | .ok (w, rest) => .next ((s.setStack rest).setPc w)

/-- JP addr (R92): the target is not checked. -/
def execJp (nnn : Addr12) (s : State) : Result := .next (s.setPc (zextAddr nnn))

/-- CALL addr (R93): the address pushed is `next`. -/
def execCall (nnn : Addr12) (s : State) : Result :=
  match push s.stack s.nextPc with
  | .error f => raise f s
  | .ok k => .next ((s.setStack k).setPc (zextAddr nnn))

/-- JP V0, addr (R94): always V0. -/
def execJpV0 (nnn : Addr12) (s : State) : Result := .next (s.setPc (offsetTarget nnn (s.reg 0)))

end Sys2Proof.Machine
end

