-- ==== Sys2Proof/Machine/Display.lean ====
section
/-! DEFINITION. The sprite compositor, CLS and DRW (43_display.md R130 to R132). -/

namespace Sys2Proof.Machine

/-- The framebuffer being drawn on, and whether a pixel has been erased so far. -/
abbrev Canvas := Framebuffer × Bool

/-- One sprite pixel that is 1: a lit framebuffer pixel is a collision, and the pixel is flipped (R131). -/
def plot (c : Canvas) (px : Fin 64) (py : Fin 32) : Canvas :=
  (c.1.flip px py, c.2 || c.1.pixel px py)

/-- One row of a sprite: bit 7 of the byte is the leftmost pixel, and columns wrap modulo 64 (R131). -/
def drawRow (x0 : Nat) (py : Fin 32) (row : Byte) (c : Canvas) : Canvas :=
  (List.range 8).foldl
    (fun acc col => if row.getLsbD (7 - col) then plot acc (Fin.ofNat 64 (x0 + col)) py else acc) c

/-- The rows of a sprite from screen row `y` downward, rows wrapping modulo 32 (R131). -/
def drawRows (x0 : Nat) : Nat → List Byte → Canvas → Canvas
  | _, [], c => c
  | y, row :: rows, c => drawRows x0 (y + 1) rows (drawRow x0 (Fin.ofNat 32 y) row c)

/-- The column a sprite's left edge is drawn at, `Vx mod 64` (R131). -/
def originX (b : Byte) : Nat := b.toNat % 64

/-- The row a sprite's top edge is drawn at, `Vy mod 32` (R131). -/
def originY (b : Byte) : Nat := b.toNat % 32

/-- CLS (R130). -/
def execCls (s : State) : Result :=
  .next ((s.setFb Framebuffer.clear).emit (.present Framebuffer.clear)).advance

/-- DRW with its sprite rows read: the pixels, then VF, then `present`, then PC (R131). -/
def drawSprite (x y : Reg) (rows : List Byte) (s : State) : State :=
  let c := drawRows (originX (s.reg x)) (originY (s.reg y)) rows (s.fb, false)
  (((s.setFb c.1).setReg vf (flagByte c.2)).emit (.present c.1)).advance

/-- DRW Vx, Vy, nibble (R131): every row is read and checked before the first pixel changes. -/
def execDrw (x y : Reg) (n : Height) (s : State) : Result :=
  match readBlock s.mem s.i.toNat n.val with
  | .error f => raise f s
  | .ok rows => .next (drawSprite x y rows s)

end Sys2Proof.Machine
end

