-- ==== Sys2Proof/Machine/Keypad.lean ====
section
/-! DEFINITION. The keypad instructions (44_keypad.md R140 to R143). -/

namespace Sys2Proof.Machine

/-- SKP Vx (Ex9E, R140). -/
def execSkp (x : Reg) (s : State) : Result := .next (s.skipIf (s.keyDown (lowNibble (s.reg x))))

/-- SKNP Vx (ExA1, R141). -/
def execSknp (x : Reg) (s : State) : Result := .next (s.skipIf (!s.keyDown (lowNibble (s.reg x))))

/-- LD Vx, K (R142): the lowest key that is down; while none is, the step changes nothing and the instruction is
fetched again. -/
def execLdVxK (x : Reg) (s : State) : Result :=
  match s.lowestKey with
  | some k => .next (s.setReg x (BitVec.ofNat 8 k.val)).advance
  | none => .next s

end Sys2Proof.Machine
end

