-- ==== Sys2Proof/Machine/MemoryBlock.lean ====
section
/-! DEFINITION. Font address, BCD store and register-block moves (46_memory_block.md R160 to R163). I is never
changed by the last three. -/

namespace Sys2Proof.Machine

/-- LD F, Vx (R160): no memory is accessed. -/
def execLdF (x : Reg) (s : State) : Result := .next (s.setI (glyphAddr (lowNibble (s.reg x)))).advance

/-- LD B, Vx (R161): all three addresses are checked first. -/
def execLdB (x : Reg) (s : State) : Result :=
  match storeBlock s.mem s.i.toNat (bcdDigits (s.reg x)) with
  | .error f => raise f s
  | .ok m => .next (s.setMem m).advance

/-- LD [I], Vx (R162): all addresses are checked first. -/
def execStoreRegs (x : Reg) (s : State) : Result :=
  match storeBlock s.mem s.i.toNat (s.regsUpTo x) with
  | .error f => raise f s
  | .ok m => .next (s.setMem m).advance

/-- LD Vx, [I] (R163): every byte is read before the first register is written. -/
def execLoadRegs (x : Reg) (s : State) : Result :=
  match readBlock s.mem s.i.toNat (blockCount x) with
  | .error f => raise f s
  | .ok bs => .next (s.setRegsFrom 0 bs).advance

end Sys2Proof.Machine
end

