-- ==== Sys2Proof/Machine/Timer.lean ====
section
/-! DEFINITION. The timer instructions (45_timers.md R150 to R152). -/

namespace Sys2Proof.Machine

/-- LD Vx, DT (R150). -/
def execLdVxDT (x : Reg) (s : State) : Result := .next (s.setReg x s.dt).advance

/-- LD DT, Vx (R151). -/
def execLdDTVx (x : Reg) (s : State) : Result := .next (s.setDt (s.reg x)).advance

/-- LD ST, Vx (R152). -/
def execLdSTVx (x : Reg) (s : State) : Result := .next (s.setSt (s.reg x)).advance

end Sys2Proof.Machine
end

