-- ==== Sys2Proof/Machine/Engine.lean ====
section
/-! DEFINITION. The Execution Engine's cycle: fetch, decode, execute (30_encoding.md R80; 60_exceptions.md R173). -/

namespace Sys2Proof.Machine

/-- Fetch: the opcode at `pc`, big-endian, or OutOfBounds on the first of `pc`, `pc + 1` above 4095 (R54, R80). -/
def fetch (s : State) : Except Fault Word := memReadWord s.mem s.pc.toNat

/-- Executing an opcode that decodes to Unknown (R173): fatal in strict mode, otherwise a warning and the advance. -/
def execUnknown (w : Word) (s : State) : Result :=
  if s.strict then raise (.unknownOpcode w) s
  else .next (s.emit (.warn w)).advance

/-- Dispatching what was decoded (R80). -/
def execDecoded (d : Decoded) (s : State) : Result :=
  match d with
  | .instr i => exec i s
  | .unknown w => execUnknown w s

/-- The engine's action, the spec's `step` (R80): nothing while halted (R178), else one fetch, decode, execute. -/
def cycle (s : State) : Result :=
  match s.halt with
  | some _ => .next s
  | none =>
    match fetch s with
    | .error f => raise f s
    | .ok w => execDecoded (decode w) s

end Sys2Proof.Machine
end

