-- ==== Sys2Proof/Machine/Environment.lean ====
section
/-! DEFINITION. The actions of the other two agents, the Timer/Clock Driver and the host, and the performing of any
action (00_scope.md R6; 60_exceptions.md R180, R181; 70_reset_and_hazards.md R200 to R202). -/

namespace Sys2Proof.Machine

/-- A timer counts down and stops at 0 (R180). -/
def countDown (b : Byte) : Byte := if b = 0 then 0 else b - 1

/-- `tick` (R180): nothing while halted, else both timers count down. -/
def tick (s : State) : State :=
  match s.halt with
  | some _ => s
  | none => (s.setDt (countDown s.dt)).setSt (countDown s.st)

/-- `reset` (R200): every piece of machine state at its reset value, STRICT back at its default until the host
chooses it again (R36, R202 step 2), and the boot begins. The keypad is not touched; the model's own records go on
(assumption 16). -/
def resetAction (s : State) : State :=
  { State.reset with key := s.key, events := s.events, draws := s.draws, agenda := s.agenda }

/-- The bytes fit in memory from `origin` upward; the sum is formed without wrap (R201). -/
def romFits (bytes : List Byte) (origin : Nat) : Bool := decide (origin + bytes.length ≤ Config.memSize)

/-- `load(bytes, origin = 0x200)` (R201): RomTooLarge with nothing copied, or the bytes in memory from `origin`
upward. -/
def load (s : State) (bytes : List Byte) (origin : Nat := Config.programOrigin) : Result :=
  if romFits bytes origin then
    match writeBlock s.mem origin bytes with
    | .error f => .fault f
    | .ok m => .next (s.setMem m)
  else .fault .romTooLarge

/-- The host's `load` as an action: one that fails signals `load_error` and changes nothing else (R34, R201). -/
def loadAction (s : State) (bytes : List Byte) (origin : Nat) : Result :=
  match load s bytes origin with
  | .next t => .next t
  | .fault _ => .next (s.emit .loadError)
  | .refused r => .refused r

/-- The first step ends the boot (R201, R202); a halted block makes no step (R178). -/
def State.beginRun (s : State) : State :=
  match s.halt with
  | some _ => s
  | none => s.setPhase .running

/-- Whether the machine offers an action in a state: `load` (R201, R33) and the choice of STRICT (R31, R202) only
between `reset` and the first step, every other action always. -/
def offered (a : Action) (s : State) : Bool :=
  match a with
  | .step | .tick | .setKeys _ | .reset => true
  | .setStrict _ | .load _ _ => decide (s.phase = .booting)

/-- What an offered action does. -/
def act (a : Action) (s : State) : Result :=
  match a with
  | .step => cycle s.beginRun
  | .tick => .next (tick s)
  | .setKeys k => .next (s.setKey k)
  | .reset => .next (resetAction s)
  | .setStrict b => .next (s.setStrict b)
  | .load bytes origin => loadAction s bytes origin

/-- One action of one agent; an action that is not offered does nothing (assumption 14). -/
def perform (a : Action) (s : State) : Result := if offered a s then act a s else .next s

/-- Several actions in order: one interleaving of the agents (R181). -/
def performAll : List Action → State → Result
  | [], s => .next s
  | a :: rest, s =>
    match perform a s with
    | .next t => performAll rest t
    | .fault f => .fault f
    | .refused r => .refused r

/-! ## The order of the boot (R202) -/

/-- How far the host has come in the order of R202. -/
inductive BootStage where
  /-- After step 1: STRICT may be chosen, a load may come. -/
  | fresh
  /-- The last load succeeded: the run may begin, or another load come. -/
  | loaded
  /-- The last load signalled RomTooLarge: stop, or load something else. -/
  | rejected
  /-- Steps and ticks have begun. -/
  | running
  deriving DecidableEq, Repr

/-- The host keeps the order of R202: after a `reset`, STRICT is chosen before any load; at least one load comes, and
the last succeeded, before the first step or tick; then steps, ticks and keypad writes come in any interleaving, and
neither a load nor a choice of STRICT. The keypad may be written at any time (R144), and a `reset` starts over. -/
def bootOrder : BootStage → List Action → Bool
  | _, [] => true
  | _, .reset :: rest => bootOrder .fresh rest
  | g, .setKeys _ :: rest => bootOrder g rest
  | g, .setStrict _ :: rest => decide (g = .fresh) && bootOrder .fresh rest
  | g, .load bytes origin :: rest =>
    decide (g ≠ .running) && bootOrder (if romFits bytes origin then .loaded else .rejected) rest
  | g, .step :: rest => decide (g = .loaded ∨ g = .running) && bootOrder .running rest
  | g, .tick :: rest => decide (g = .loaded ∨ g = .running) && bootOrder .running rest

/-! ## Schedules: how steps and ticks interleave (R181) -/

/-- One `tick` after every `k`-th of `n` steps: the deterministic schedule of R181, `STEPS_PER_TICK = k`
(assumption 15). `since` counts the steps since the last tick. DESIGN CHOICE: the spec gives the parameter no range, and
`k = 0` is taken as 1, as in `stepsPerTick`. -/
def ticking (k : Nat) : Nat → Nat → List Action
  | _, 0 => []
  | since, n + 1 =>
    if since + 1 < k then .step :: ticking k (since + 1) n
    else .step :: .tick :: ticking k 0 n

/-- An infinite run's actions, in order: an input of the transition relation, not state (R31, R181). -/
abbrev Schedule := Nat → Action

/-- The first `n` actions of a schedule: an agenda. -/
def Schedule.upTo (sch : Schedule) (n : Nat) : List Action := (List.range n).map sch

/-- The run of a schedule from `s`, after `n` actions. -/
def runTo (sch : Schedule) (s : State) (n : Nat) : Result := performAll (sch.upTo n) s

/-- An action comes again and again. -/
def keepsComing (sch : Schedule) (a : Action) : Prop := ∀ n, ∃ m, n ≤ m ∧ sch m = a

/-- Progress (R181): while the block is not halted, ticks keep coming, whatever the program does. In an infinite run
that never halts, infinitely many ticks occur. -/
def progress (sch : Schedule) (s : State) : Prop :=
  ∀ n, (∀ t, runTo sch s n = .next t → t.halt = none) → ∃ m, n ≤ m ∧ sch m = .tick

/-- The infinite schedule of `STEPS_PER_TICK = k`: `k` steps, then a tick, again and again (R181; assumption 15). DESIGN CHOICE: the spec gives the parameter no range, and `k = 0` is taken as 1, as in
`ticking`. -/
def stepsPerTick (k : Nat) : Schedule := fun n => if n % (max k 1 + 1) = max k 1 then .tick else .step

/-! The outputs that are functions of the state (10_state.md R34). -/

/-- The output `tone`: `ST > 0` (R182). -/
def tone (s : State) : Bool := decide (s.st.toNat > 0)

/-- The numeric code of a fault (R170). -/
def faultCode : Fault → Nat
  | .outOfBounds _ => 1
  | .stackFault _ => 2
  | .unknownOpcode _ => 3
  | .romTooLarge => 4

/-- The code on the `halt` output: 0 while running (R34, R170). -/
def haltCode (s : State) : Nat :=
  match s.halt with
  | none => 0
  | some f => faultCode f

end Sys2Proof.Machine
end

