-- ==== Sys2Proof/Machine/Step.lean ====
section
/-! DEFINITION. The machine's step: the next action of the agenda, or the engine's cycle when the agenda is empty
(60_exceptions.md R181; assumption 2). -/

namespace Sys2Proof.Machine

/-- One atomic action of the whole machine. -/
def step (s : State) : Host.Outcome State Fault Refusal :=
  match s.agenda with
  | [] => perform .step s
  | a :: rest => perform a (s.setAgenda rest)

/-- `s` with the 16-bit instruction `w` where the next step fetches it: loaded, the boot over, no halt, no other agent's
action due, and `pc` kept where an instruction can be fetched (else at the entry point); assumptions 10 and 11. -/
def State.withFetchWord (s : State) (_nbits w : Nat) : State :=
  let pc : Word := if s.pc.toNat + 1 < Config.memSize then s.pc else BitVec.ofNat 16 Config.programOrigin
  { s with
    pc := pc
    mem := (s.mem.poke pc.toNat (BitVec.ofNat 8 (w / 256))).poke (pc.toNat + 1) (BitVec.ofNat 8 w)
    halt := none
    phase := .running
    agenda := [] }

end Sys2Proof.Machine
end

