-- ==== Sys2Proof/Safety.lean ====
section
/-! DEFINITION. The terms the claims are written in: what may differ between two states, the shapes of an
instruction's result, the invariant of the machine, and being idle. -/

namespace Sys2Proof.Machine

/-! ## What an action leaves alone -/

/-- The parts of the state, one per field. -/
inductive Part where
  | v | index | pc | stack | delay | sound | memory | display | keypad | halt | strict | phase | events | draws | agenda
  deriving DecidableEq, Repr

/-- `t` agrees with `s` on every part outside `parts`: every register, every byte of memory, every other field. -/
def sameOutside (parts : List Part) (s t : State) : Prop :=
  (Part.v ∉ parts → ∀ r, t.reg r = s.reg r) ∧
  (Part.index ∉ parts → t.i = s.i) ∧
  (Part.pc ∉ parts → t.pc = s.pc) ∧
  (Part.stack ∉ parts → t.stack = s.stack) ∧
  (Part.delay ∉ parts → t.dt = s.dt) ∧
  (Part.sound ∉ parts → t.st = s.st) ∧
  (Part.memory ∉ parts → ∀ a, t.mem.peek a = s.mem.peek a) ∧
  (Part.display ∉ parts → t.fb = s.fb) ∧
  (Part.keypad ∉ parts → t.key = s.key) ∧
  (Part.halt ∉ parts → t.halt = s.halt) ∧
  (Part.strict ∉ parts → t.strict = s.strict) ∧
  (Part.phase ∉ parts → t.phase = s.phase) ∧
  (Part.events ∉ parts → t.events = s.events) ∧
  (Part.draws ∉ parts → t.draws = s.draws) ∧
  (Part.agenda ∉ parts → t.agenda = s.agenda)

/-- The parts an instruction may change when it does not fault (10_state.md R33, by instruction). -/
def mayWrite : Instr → List Part
  | .sys _ | .jp _ | .jpV0 _ => [.pc]
  | .seByte _ _ | .sneByte _ _ | .seReg _ _ | .sneReg _ _ | .skp _ | .sknp _ => [.pc]
  | .call _ | .ret => [.pc, .stack]
  | .ldByte _ _ | .addByte _ _ | .ldReg _ _ | .orReg _ _ | .andReg _ _ | .xorReg _ _ => [.pc, .v]
  | .addReg _ _ | .sub _ _ | .shr _ _ | .subn _ _ | .shl _ _ => [.pc, .v]
  | .ldVxDT _ | .ldVxK _ | .loadRegs _ => [.pc, .v]
  | .rnd _ _ => [.pc, .v, .draws]
  | .ldI _ | .addI _ | .ldF _ => [.pc, .index]
  | .ldDTVx _ => [.pc, .delay]
  | .ldSTVx _ => [.pc, .sound]
  | .ldB _ | .storeRegs _ => [.pc, .memory]
  | .cls => [.pc, .display, .events]
  | .drw _ _ _ => [.pc, .v, .display, .events]

/-- The parts each agent's action may change: the table of 10_state.md R33, and for what it has no row the model's own
reading (STRICT: assumptions 4 and 16; the phase: assumption 14; the records that a reset leaves alone: assumptions 2, 3
and 6). -/
def agentMayWrite : Action → List Part
  | .step => [.v, .index, .pc, .stack, .delay, .sound, .memory, .display, .halt, .phase, .events, .draws]
  | .tick => [.delay, .sound]
  | .setKeys _ => [.keypad]
  | .reset => [.v, .index, .pc, .stack, .delay, .sound, .memory, .display, .halt, .strict, .phase]
  | .setStrict _ => [.strict]
  | .load _ _ => [.memory, .events]

/-! ## Shapes of a result -/

/-- `i` runs in `s`, Vx ends as the number `result`, PC as `next`, and nothing else changes. -/
def registerResult (i : Instr) (s : State) (x : Reg) (result : Nat) : Prop :=
  ∃ t, exec i s = .next t ∧ (t.reg x).toNat = result ∧ (∀ r, r ≠ x → t.reg r = s.reg r) ∧
    t.pc = s.pc + 2 ∧ sameOutside [.v, .pc] s t

/-- `i` runs in `s`, VF ends as the number `flag`, Vx as `result` unless it is VF, PC as `next`, and nothing else
changes (42_load_and_arithmetic.md R125). -/
def flaggedResult (i : Instr) (s : State) (x : Reg) (result flag : Nat) : Prop :=
  ∃ t, exec i s = .next t ∧ (x ≠ vf → (t.reg x).toNat = result) ∧ (t.reg vf).toNat = flag ∧
    (∀ r, r ≠ x → r ≠ vf → t.reg r = s.reg r) ∧ t.pc = s.pc + 2 ∧ sameOutside [.v, .pc] s t

/-- `i` runs in `s`, I ends as the number `result`, PC as `next`, and nothing else changes. -/
def indexResult (i : Instr) (s : State) (result : Nat) : Prop :=
  ∃ t, exec i s = .next t ∧ t.i.toNat = result ∧ t.pc = s.pc + 2 ∧ sameOutside [.index, .pc] s t

/-- `i` runs in `s`, PC ends as `skip` when `c` holds and as `next` when it does not, and nothing else changes. -/
def skipResult (i : Instr) (s : State) (c : Prop) : Prop :=
  ∃ t, exec i s = .next t ∧ (c → t.pc = s.pc + 4) ∧ (¬c → t.pc = s.pc + 2) ∧ sameOutside [.pc] s t

/-- `i` faults in `s` with `f`: the halt status is set and nothing else changes (60_exceptions.md R177). -/
def faultsWith (i : Instr) (s : State) (f : Fault) : Prop := exec i s = .next { s with halt := some f }

/-- The pixel at column `px`, row `py` is one that the sprite of `DRW Vx, Vy, n` turns over: row `r` lies at
`(Vy mod 32 + r) mod 32`, its bit `7 - c` at column `(Vx mod 64 + c) mod 64` (43_display.md R131). -/
def spriteCovers (s : State) (x y : Reg) (n : Height) (px : Fin 64) (py : Fin 32) : Prop :=
  ∃ r c : Nat, r < n.val ∧ c < 8 ∧ (s.mem.peek (s.i.toNat + r)).getLsbD (7 - c) = true ∧
    px.val = ((s.reg x).toNat % 64 + c) % 64 ∧ py.val = ((s.reg y).toNat % 32 + r) % 32

/-! ## What the host leaves -/

/-- The keypad after a list of actions that starts with `keys`: the last value the host wrote (44_keypad.md R144). -/
def keysAfter (keys : BitVec 16) (acts : List Action) : BitVec 16 :=
  acts.foldl (fun k a => match a with | .setKeys k' => k' | _ => k) keys

/-- Every action of the list is offered when its turn comes (70_reset_and_hazards.md R201, R202). -/
def allOffered : List Action → State → Bool
  | [], _ => true
  | a :: rest, s =>
    offered a s &&
      match perform a s with
      | .next t => allOffered rest t
      | .fault _ => false
      | .refused _ => false

/-! ## What a store leaves in memory -/

/-- The byte at `a` after LD [I], Vx: a stored register, or what was there (46_memory_block.md R162). -/
def byteAfterStore (s : State) (x : Reg) (a : Nat) : Byte :=
  if s.i.toNat ≤ a ∧ a ≤ s.i.toNat + x.val then s.reg (Fin.ofNat 16 (a - s.i.toNat)) else s.mem.peek a

/-- The byte at `a` after LD B, Vx: a decimal digit of Vx, or what was there (46_memory_block.md R161). -/
def byteAfterBcd (s : State) (x : Reg) (a : Nat) : Byte :=
  if a = s.i.toNat then BitVec.ofNat 8 ((s.reg x).toNat / 100)
  else if a = s.i.toNat + 1 then BitVec.ofNat 8 ((s.reg x).toNat / 10 % 10)
  else if a = s.i.toNat + 2 then BitVec.ofNat 8 ((s.reg x).toNat % 10)
  else s.mem.peek a

/-! ## Memory after reset -/

/-- Memory reads as `reset` leaves it (10_state.md R36; 20_memory.md R58): the 80 bytes of the font, written out glyph
by glyph, at 0x000 to 0x04F, and zero everywhere else. -/
def readsAsReset (m : Memory) : Prop :=
  (∀ a, 80 ≤ a → m.peek a = 0) ∧
  (List.range 80).map m.peek =
    [0xF0, 0x90, 0x90, 0x90, 0xF0,  0x20, 0x60, 0x20, 0x20, 0x70,
     0xF0, 0x10, 0xF0, 0x80, 0xF0,  0xF0, 0x10, 0xF0, 0x10, 0xF0,
     0x90, 0x90, 0xF0, 0x10, 0x10,  0xF0, 0x80, 0xF0, 0x10, 0xF0,
     0xF0, 0x80, 0xF0, 0x90, 0xF0,  0xF0, 0x10, 0x20, 0x40, 0x40,
     0xF0, 0x90, 0xF0, 0x90, 0xF0,  0xF0, 0x90, 0xF0, 0x10, 0xF0,
     0xF0, 0x90, 0xF0, 0x90, 0x90,  0xE0, 0x90, 0xE0, 0x90, 0xE0,
     0xF0, 0x80, 0x80, 0x80, 0xF0,  0xE0, 0x90, 0x90, 0x90, 0xE0,
     0xF0, 0x80, 0xF0, 0x80, 0xF0,  0xF0, 0x80, 0xF0, 0x80, 0x80]

/-! ## The invariant -/

/-- What a halt record can be (60_exceptions.md R170): an address above 4095 that 16 bits can form, a stack error, or
a word that is Unknown; never RomTooLarge. -/
def faultRecordOk : Fault → Prop
  | .outOfBounds a => 4095 < a ∧ a < 65536
  | .stackFault _ => True
  | .unknownOpcode w => decode w = .unknown w
  | .romTooLarge => False

/-- The invariant of the machine, kept by every step from every state that has it. -/
structure State.Inv (s : State) : Prop where
  /-- Memory is in its canonical form. -/
  memory : s.mem.wf = true
  /-- At most STACK_DEPTH entries (10_state.md R24). -/
  depth : s.stack.length ≤ Config.stackDepth
  /-- A popped value cannot exceed 4096 (40_control_flow.md R91). -/
  entries : ∀ w ∈ s.stack, w.toNat ≤ 0x1000
  /-- The largest value PC can ever hold is 0x10FE (10_state.md R23). -/
  pcBound : s.pc.toNat ≤ 0x10FE
  /-- The halt status is one the taxonomy allows. -/
  haltRecord : ∀ f, s.halt = some f → faultRecordOk f
  /-- Only a step halts the block, so a halted block is no longer booting (10_state.md R30). -/
  haltedRuns : s.halt ≠ none → s.phase = .running
  /-- What a program may assume at its first step (70_reset_and_hazards.md R202). -/
  firstStep : s.phase = .booting →
    s.pc = 0x0200 ∧ (∀ r, s.reg r = 0) ∧ s.i = 0 ∧ s.stack = [] ∧ s.dt = 0 ∧ s.st = 0 ∧
      ∀ px py, s.fb.pixel px py = false

/-! ## Idle -/

/-- Idle at `pc`: the word there is JP to that very address, and the block is not halted
(70_reset_and_hazards.md R203). -/
def State.idle (s : State) : Prop :=
  s.halt = none ∧ s.pc.toNat ≤ 4094 ∧
    ∃ nnn : Addr12, nnn.toNat = s.pc.toNat ∧
      decode (wordOfBytes (s.mem.peek s.pc.toNat) (s.mem.peek (s.pc.toNat + 1))) = .instr (.jp nnn)

end Sys2Proof.Machine
end

