-- ==== Sys2Proof/Certificates/Slice0/Obligations.lean ====
section
/-! DEFINITION. The statements for the provers. Each docstring names the rule or section of spec/ it formalises. -/

open Sys2Proof
open Sys2Proof.Machine

/-! ## Encoding and decoding -/

/-- Words written out from the spec's encodings decode to the instructions they stand for
(95_test_vectors.md section 2.1). -/
def Obligations.KnownWordsDecode : Prop :=
  decode 0x00E0 = .instr .cls ∧ decode 0x00EE = .instr .ret ∧ decode 0x00E1 = .instr (.sys 0x0E1) ∧
  decode 0x2FFF = .instr (.call 0xFFF) ∧ decode 0x5120 = .instr (.seReg 1 2) ∧
  decode 0x8127 = .instr (.subn 1 2) ∧ decode 0x812E = .instr (.shl 1 2) ∧
  decode 0xD015 = .instr (.drw 0 1 5) ∧ decode 0xE1A1 = .instr (.sknp 1) ∧
  decode 0xF165 = .instr (.loadRegs 1) ∧ decode 0x5121 = .unknown 0x5121 ∧ decode 0xF175 = .unknown 0xF175

/-- Decoding the word of a well-formed instruction gives it back, every operand at every value
(30_encoding.md sections 1 and 3). -/
def Obligations.DecodeInvertsEncode : Prop :=
  ∀ i : Instr, i.wf = true → decode (encode i) = .instr i

/-- A word that decodes to an instruction is that instruction's word, and the instruction is well formed: each
word has one meaning (30_encoding.md section 3). -/
def Obligations.EncodeInvertsDecode : Prop :=
  ∀ (w : Word) (i : Instr), decode w = .instr i → i.wf = true ∧ encode i = w

/-- The decoder is the opcode table's: a word decodes into a row only if `w & mask = match`; a word of a row
decodes into that row unless it is one of the two FIXED words; a word of no row is Unknown, with its own bits
(30_encoding.md section 3). -/
def Obligations.DecodeFollowsMaskAndMatch : Prop :=
  ∀ w : Word,
    (∀ i, decode w = .instr i → w &&& (tableRow i).mask = (tableRow i).pat) ∧
    (∀ i, w &&& (tableRow i).mask = (tableRow i).pat →
      (w = 0x00E0 ∧ decode w = .instr .cls) ∨ (w = 0x00EE ∧ decode w = .instr .ret) ∨
      ∃ j, decode w = .instr j ∧ tableRow j = tableRow i) ∧
    ((∀ i, w &&& (tableRow i).mask ≠ (tableRow i).pat) → decode w = .unknown w)

/-- Exactly the words of these families are Unknown, and every other word is an instruction
(30_encoding.md section 4; the counts of words are not stated). -/
def Obligations.UnknownWordsByFamily : Prop :=
  ∀ w : Word,
    (decode w = .unknown w ↔
      (w.toNat / 4096 = 5 ∧ w.toNat % 16 ≠ 0) ∨
      (w.toNat / 4096 = 8 ∧ w.toNat % 16 ∈ [0x8, 0x9, 0xA, 0xB, 0xC, 0xD, 0xF]) ∨
      (w.toNat / 4096 = 9 ∧ w.toNat % 16 ≠ 0) ∨
      (w.toNat / 4096 = 0xE ∧ w.toNat % 256 ∉ [0x9E, 0xA1]) ∨
      (w.toNat / 4096 = 0xF ∧
        w.toNat % 256 ∉ [0x07, 0x0A, 0x15, 0x18, 0x1E, 0x29, 0x33, 0x55, 0x65])) ∧
    (decode w = .unknown w ∨ ∃ i, decode w = .instr i)

/-- The word of every instruction, as a number made of its fields: the patterns of the opcode map, digit by digit
(30_encoding.md section 3). -/
def Obligations.EncodingPatterns : Prop :=
  (encode .cls).toNat = 0x00E0 ∧ (encode .ret).toNat = 0x00EE ∧
  (∀ nnn : Addr12,
    (encode (.sys nnn)).toNat = nnn.toNat ∧ (encode (.jp nnn)).toNat = 0x1000 + nnn.toNat ∧
    (encode (.call nnn)).toNat = 0x2000 + nnn.toNat ∧ (encode (.ldI nnn)).toNat = 0xA000 + nnn.toNat ∧
    (encode (.jpV0 nnn)).toNat = 0xB000 + nnn.toNat) ∧
  (∀ (x : Reg) (kk : Byte),
    (encode (.seByte x kk)).toNat = 0x3000 + 0x100 * x.val + kk.toNat ∧
    (encode (.sneByte x kk)).toNat = 0x4000 + 0x100 * x.val + kk.toNat ∧
    (encode (.ldByte x kk)).toNat = 0x6000 + 0x100 * x.val + kk.toNat ∧
    (encode (.addByte x kk)).toNat = 0x7000 + 0x100 * x.val + kk.toNat ∧
    (encode (.rnd x kk)).toNat = 0xC000 + 0x100 * x.val + kk.toNat) ∧
  (∀ x y : Reg,
    (encode (.seReg x y)).toNat = 0x5000 + 0x100 * x.val + 0x10 * y.val ∧
    (encode (.ldReg x y)).toNat = 0x8000 + 0x100 * x.val + 0x10 * y.val ∧
    (encode (.orReg x y)).toNat = 0x8001 + 0x100 * x.val + 0x10 * y.val ∧
    (encode (.andReg x y)).toNat = 0x8002 + 0x100 * x.val + 0x10 * y.val ∧
    (encode (.xorReg x y)).toNat = 0x8003 + 0x100 * x.val + 0x10 * y.val ∧
    (encode (.addReg x y)).toNat = 0x8004 + 0x100 * x.val + 0x10 * y.val ∧
    (encode (.sub x y)).toNat = 0x8005 + 0x100 * x.val + 0x10 * y.val ∧
    (encode (.shr x y)).toNat = 0x8006 + 0x100 * x.val + 0x10 * y.val ∧
    (encode (.subn x y)).toNat = 0x8007 + 0x100 * x.val + 0x10 * y.val ∧
    (encode (.shl x y)).toNat = 0x800E + 0x100 * x.val + 0x10 * y.val ∧
    (encode (.sneReg x y)).toNat = 0x9000 + 0x100 * x.val + 0x10 * y.val) ∧
  (∀ (x y : Reg) (n : Height), (encode (.drw x y n)).toNat = 0xD000 + 0x100 * x.val + 0x10 * y.val + n.val) ∧
  (∀ x : Reg,
    (encode (.skp x)).toNat = 0xE09E + 0x100 * x.val ∧ (encode (.sknp x)).toNat = 0xE0A1 + 0x100 * x.val ∧
    (encode (.ldVxDT x)).toNat = 0xF007 + 0x100 * x.val ∧ (encode (.ldVxK x)).toNat = 0xF00A + 0x100 * x.val ∧
    (encode (.ldDTVx x)).toNat = 0xF015 + 0x100 * x.val ∧ (encode (.ldSTVx x)).toNat = 0xF018 + 0x100 * x.val ∧
    (encode (.addI x)).toNat = 0xF01E + 0x100 * x.val ∧ (encode (.ldF x)).toNat = 0xF029 + 0x100 * x.val ∧
    (encode (.ldB x)).toNat = 0xF033 + 0x100 * x.val ∧ (encode (.storeRegs x)).toNat = 0xF055 + 0x100 * x.val ∧
    (encode (.loadRegs x)).toNat = 0xF065 + 0x100 * x.val)

/-! ## Reset, load and boot -/

/-- R36: what reset leaves, before any load, and the halt output's code for it, 0. The keypad has no reset value in the
spec and nothing is said of it. -/
def Obligations.ResetValues : Prop :=
  (∀ r, State.reset.reg r = 0) ∧ State.reset.i = 0 ∧ State.reset.pc = 0x0200 ∧ State.reset.stack = [] ∧
  State.reset.dt = 0 ∧ State.reset.st = 0 ∧ tone State.reset = false ∧ readsAsReset State.reset.mem ∧
  (∀ x y, State.reset.fb.pixel x y = false) ∧ State.reset.halt = none ∧ haltCode State.reset = 0 ∧
  State.reset.strict = false

/-- R200: the host's `reset`, from any state, halted or not, puts every piece of state at its reset value, leaves
the keypad alone and emits no `present`. -/
def Obligations.ResetFromAnyState : Prop :=
  ∀ s : State, ∃ t, perform .reset s = .next t ∧
    (∀ r, t.reg r = 0) ∧ t.i = 0 ∧ t.pc = 0x0200 ∧ t.stack = [] ∧ t.dt = 0 ∧ t.st = 0 ∧
    readsAsReset t.mem ∧ t.mem.wf = true ∧ (∀ x y, t.fb.pixel x y = false) ∧ t.halt = none ∧
    t.key = s.key ∧ t.events = s.events

/-- Between reset and the first step, `load` copies the bytes when they fit and changes nothing else, PC included;
otherwise it signals RomTooLarge, memory is unchanged and `halt` with it; its origin is 0x200 unless another is named. From
the first step on it is not offered, and asking for it changes nothing (70_reset_and_hazards.md section 2; that what is not
offered does nothing is the model's choice, assumption 14). -/
def Obligations.LoadCopiesOrRejects : Prop :=
  ∀ (s : State) (bytes : List Byte) (origin : Nat), s.mem.wf = true →
    (s.phase = .booting → origin + bytes.length ≤ 4096 →
      ∃ t, load s bytes origin = .next t ∧ perform (.load bytes origin) s = .next t ∧
        (∀ j, j < bytes.length → t.mem.peek (origin + j) = bytes.getD j 0) ∧
        (∀ a, a < origin ∨ origin + bytes.length ≤ a → t.mem.peek a = s.mem.peek a) ∧
        t.mem.wf = true ∧ sameOutside [.memory] s t) ∧
    (s.phase = .booting → origin + bytes.length > 4096 →
      load s bytes origin = .fault .romTooLarge ∧
      perform (.load bytes origin) s = .next { s with events := s.events ++ [.loadError] }) ∧
    (s.phase = .running → perform (.load bytes origin) s = .next s) ∧
    perform (.load bytes) s = perform (.load bytes 0x200) s

/-- What the program may assume at its first instruction (70_reset_and_hazards.md section 3): after `reset`, the
choice of STRICT if the host makes one, and one `load` at the default origin, in any earlier state. That STRICT is false
where the host makes no choice, whatever it was before, is the model's own reading: R200 does not name STRICT, and the
reset puts it at its default (assumption 16). -/
def Obligations.BootState : Prop :=
  ∀ (s : State) (choice : Option Bool) (rom : List Byte), rom.length ≤ 3584 →
    ∃ t, performAll (.reset :: (choice.map Action.setStrict).toList ++ [.load rom]) s = .next t ∧
      t.pc = 0x0200 ∧ (∀ r, t.reg r = 0) ∧ t.i = 0 ∧ t.dt = 0 ∧ t.st = 0 ∧ t.stack = [] ∧ t.halt = none ∧
      (∀ x y, t.fb.pixel x y = false) ∧ t.strict = choice.getD false ∧ t.key = s.key ∧
      (∀ j, j < rom.length → t.mem.peek (0x200 + j) = rom.getD j 0) ∧
      (∀ a, a < 0x200 ∨ 0x200 + rom.length ≤ a → t.mem.peek a = State.reset.mem.peek a)

/-! ## The step cycle, faults and the halt -/

/-- A step does nothing while halted; a fetch past the end of memory faults on the first of `pc`, `pc + 1` above 4095;
otherwise the step is the decoded instruction's effect, or the Unknown opcode's (30_encoding.md R80). A step of a running
block leaves it past its boot: `phase` (assumption 14). With actions of the agents due, the step is the first of them (the
model's choice, assumption 2). -/
def Obligations.StepRunsDecodedInstruction : Prop :=
  (∀ s : State, s.agenda = [] →
    (s.halt ≠ none → step s = .next s) ∧
    (s.halt = none → s.pc.toNat > 4095 →
      step s = .next { s with phase := .running, halt := some (.outOfBounds s.pc.toNat) }) ∧
    (s.halt = none → s.pc.toNat = 4095 →
      step s = .next { s with phase := .running, halt := some (.outOfBounds 4096) }) ∧
    (∀ i, s.halt = none → s.pc.toNat ≤ 4094 →
      decode (wordOfBytes (s.mem.peek s.pc.toNat) (s.mem.peek (s.pc.toNat + 1))) = .instr i →
      step s = exec i { s with phase := .running }) ∧
    (∀ w, s.halt = none → s.pc.toNat ≤ 4094 →
      decode (wordOfBytes (s.mem.peek s.pc.toNat) (s.mem.peek (s.pc.toNat + 1))) = .unknown w →
      step s = execUnknown w { s with phase := .running })) ∧
  (∀ (s : State) (a : Action) (rest : List Action), s.agenda = a :: rest →
    step s = perform a { s with agenda := rest })

/-- R173: an Unknown opcode is passed over with a warning in permissive mode, PC advancing by 2, and is the fatal
fault UnknownOpcode in strict mode. -/
def Obligations.UnknownOpcodePolicy : Prop :=
  ∀ (s : State) (w : Word), s.halt = none → s.pc.toNat ≤ 4094 →
    w = wordOfBytes (s.mem.peek s.pc.toNat) (s.mem.peek (s.pc.toNat + 1)) → decode w = .unknown w →
    (s.strict = true → cycle s = .next { s with halt := some (.unknownOpcode w) }) ∧
    (s.strict = false → ∃ t, cycle s = .next t ∧ t.pc = s.pc + 2 ∧ t.events = s.events ++ [.warn w] ∧
      sameOutside [.pc, .events] s t)

/-- The opcode is big-endian: the byte at the lower address is bits 15 to 8 (20_memory.md section 3). -/
def Obligations.FetchIsBigEndian : Prop :=
  ∀ s : State, s.pc.toNat ≤ 4094 →
    ∃ w, fetch s = .ok w ∧
      w.toNat = 256 * (s.mem.peek s.pc.toNat).toNat + (s.mem.peek (s.pc.toNat + 1)).toNat

/-- R177: a step that faults sets the halt status and changes nothing else. -/
def Obligations.FaultChangesOnlyHalt : Prop :=
  ∀ s t : State, s.halt = none → cycle s = .next t → t.halt ≠ none → t = { s with halt := t.halt }

/-- R178: while the block is halted, steps and ticks change nothing and keypad writes change the keypad only, in
any number and order, so that the keypad is what the host wrote last; a `reset` then clears the halt. -/
def Obligations.HaltIsFinal : Prop :=
  ∀ (acts : List Action) (s : State), s.halt ≠ none →
    (∀ a ∈ acts, a = .step ∨ a = .tick ∨ ∃ k, a = .setKeys k) →
    performAll acts s = .next { s with key := keysAfter s.key acts } ∧
    ∃ t, performAll (acts ++ [.reset]) s = .next t ∧ t.halt = none

/-- The causes of a fault, one at most a step, each with the information it records and the code on the halt output: the
fetch, an Unknown opcode in strict mode, CALL on a full stack, RET on an empty one, or the span of DRW, LD B, LD [I],
LD Vx,[I] (60_exceptions.md sections 1 and 3). A stack of more than 16 entries, which no run reaches, counts as full
(assumption 9). -/
def Obligations.HaltCausesAreListed : Prop :=
  ∀ (s t : State) (f : Fault), s.halt = none → cycle s = .next t → t.halt = some f →
    (s.pc.toNat > 4094 ∧ f = .outOfBounds (max s.pc.toNat 4096) ∧ haltCode t = 1) ∨
    (s.pc.toNat ≤ 4094 ∧ ∃ w, w = wordOfBytes (s.mem.peek s.pc.toNat) (s.mem.peek (s.pc.toNat + 1)) ∧
      ((decode w = .unknown w ∧ s.strict = true ∧ f = .unknownOpcode w ∧ haltCode t = 3) ∨
       (∃ nnn, decode w = .instr (.call nnn) ∧ 16 ≤ s.stack.length ∧ f = .stackFault .overflow ∧ haltCode t = 2) ∨
       (decode w = .instr .ret ∧ s.stack = [] ∧ f = .stackFault .underflow ∧ haltCode t = 2) ∨
       (f = .outOfBounds (max s.i.toNat 4096) ∧ haltCode t = 1 ∧
         ((∃ x y n, decode w = .instr (.drw x y n) ∧ n.val ≠ 0 ∧ s.i.toNat + n.val - 1 > 4095) ∨
          (∃ x, decode w = .instr (.ldB x) ∧ s.i.toNat + 2 > 4095) ∨
          (∃ x, (decode w = .instr (.storeRegs x) ∨ decode w = .instr (.loadRegs x)) ∧
            s.i.toNat + x.val > 4095)))))

/-- There is no refusal and no undefined result: every instruction, every action and every step of the machine
answers a next state, a fault being one in which `halt` is set (00_scope.md section 6; assumption 1). -/
def Obligations.EveryStepAnswers : Prop :=
  (∀ (i : Instr) (s : State), ∃ t, exec i s = .next t) ∧
  (∀ (a : Action) (s : State), ∃ t, perform a s = .next t) ∧
  (∀ s : State, ∃ t, step s = .next t)

/-! ## The invariant and the agents -/

/-- The invariant holds at reset. -/
def Obligations.InvariantAtReset : Prop := State.reset.Inv

/-- Every step keeps the invariant: memory stays canonical, the stack within its depth, its entries at most 0x1000,
PC at most 0x10FE, the halt record one the taxonomy allows, a halted block past its boot, and until the first step every
register as R202 says the program finds it (10_state.md sections 4, 5 and 8; 70_reset_and_hazards.md section 3). -/
def Obligations.StepKeepsInvariant : Prop :=
  ∀ s t : State, s.Inv → step s = .next t → t.Inv

/-- Each agent's action changes only the parts of the state that are its own to write; in particular nothing but the
host changes the keypad and STRICT, and a keypad write leaves what the host wrote (10_state.md section 10; 44_keypad.md
R144). What the table of section 10 has no row for is the model's own: that a reset puts STRICT back at its default
(assumption 16), the phase (assumption 14), and the records that a reset leaves alone (assumptions 2, 3 and 6). -/
def Obligations.AgentsWriteOnlyTheirOwn : Prop :=
  (∀ (a : Action) (s t : State), perform a s = .next t → sameOutside (agentMayWrite a) s t) ∧
  ∀ (k : BitVec 16) (s : State), ∃ t, perform (.setKeys k) s = .next t ∧ t.key = k

/-- The frame of all 35 instructions at once: an instruction that does not fault changes only the parts listed for
it in `mayWrite` (10_state.md section 10). -/
def Obligations.InstructionsWriteOnlyTheirParts : Prop :=
  ∀ (i : Instr) (s t : State), s.halt = none → exec i s = .next t → t.halt = none →
    sameOutside (mayWrite i) s t

/-- VF changes only by an instruction that writes it as a flag or names it as its destination, and the six flag
writers leave 0 or 1 in it (10_state.md section 2). -/
def Obligations.FlagWritersAreListed : Prop :=
  ∀ (i : Instr) (s t : State), s.halt = none → exec i s = .next t → t.halt = none →
    match i with
    | .addReg _ _ | .sub _ _ | .shr _ _ | .subn _ _ | .shl _ _ | .drw _ _ _ =>
        t.reg vf = 0 ∨ t.reg vf = 1
    | .ldByte x _ | .addByte x _ | .ldReg x _ | .orReg x _ | .andReg x _ | .xorReg x _ | .rnd x _
    | .ldVxDT x | .ldVxK x | .loadRegs x => x ≠ vf → t.reg vf = s.reg vf
    | _ => t.reg vf = s.reg vf

/-- Running the machine on an agenda is performing its actions in order, so every finite interleaving of steps,
ticks, keypad writes and the host's other actions is a run of the machine (60_exceptions.md section 7;
assumption 2). -/
def Obligations.AgendaRunsEveryInterleaving : Prop :=
  ∀ (acts : List Action) (s : State), s.agenda = [] →
    Sys2Proof.core.run acts.length ({ s with agenda := acts } : State) = performAll acts s

/-- The program cannot read ST: whatever value it holds, every instruction does the same, but for ST itself
(10_state.md section 6). -/
def Obligations.SoundTimerIsWriteOnly : Prop :=
  ∀ (i : Instr) (s t : State) (b : Byte), exec i s = .next t →
    ∃ u, exec i { s with st := b } = .next u ∧ { u with st := t.st } = t

/-- What a program can learn of the display is the collision flag of DRW only: whatever the framebuffer holds, an
instruction leaves the same state but for the framebuffer, the events that show it, and VF after a DRW
(43_display.md R133). -/
def Obligations.DisplayShowsOnlyAsCollision : Prop :=
  ∀ (i : Instr) (s t : State) (f : Framebuffer), exec i s = .next t →
    ∃ u, exec i { s with fb := f } = .next u ∧ sameOutside [.v, .display, .events] t u ∧
      (∀ r, r ≠ vf → u.reg r = t.reg r) ∧ ((∀ x y n, i ≠ .drw x y n) → u.reg vf = t.reg vf)

/-- An instruction does not depend on the address it stands at, except through `next`, `skip` and the return address
that CALL pushes (30_encoding.md R82). -/
def Obligations.ExecutionIsPositionIndependent : Prop :=
  ∀ (i : Instr) (s t : State) (p : Word), exec i s = .next t →
    ∃ u, exec i { s with pc := p } = .next u ∧ sameOutside [.pc, .stack] t u ∧
      (u.pc = t.pc ∨ u.pc - p = t.pc - s.pc) ∧
      (u.stack = t.stack ∨ (∃ nnn, i = .call nnn) ∧ u.stack = (p + 2) :: s.stack ∧ t.stack = (s.pc + 2) :: s.stack)

/-! ## Memory -/

/-- R51 and R52: a read or write above 4095 is OutOfBounds with that address; in range a read gives the byte, a write
changes that byte and no other, and the canonical form is kept. -/
def Obligations.MemReadAndMemWrite : Prop :=
  ∀ (m : Memory) (a : Nat) (b : Byte), m.wf = true →
    (a > 4095 → memRead m a = .error (.outOfBounds a) ∧ memWrite m a b = .error (.outOfBounds a)) ∧
    (a ≤ 4095 → memRead m a = .ok (m.peek a) ∧
      ∃ m', memWrite m a b = .ok m' ∧ m'.wf = true ∧ memRead m' a = .ok b ∧
        ∀ q, q ≠ a → memRead m' q = memRead m q)

/-- Two memories in the canonical form that read alike at every address are equal data (the model's choice of form,
assumption 8). -/
def Obligations.CanonicalMemoriesAreEqual : Prop :=
  ∀ m m' : Memory, m.wf = true → m'.wf = true → (∀ a, m.peek a = m'.peek a) → m = m'

/-- A store into code is seen by the next fetch (20_memory.md section 11): after LD [I], Vx or LD B, Vx, a fetch at any
address gives the bytes that are there then, stored or old, both of them, one of them or neither. -/
def Obligations.StoreIsSeenByFetch : Prop :=
  ∀ (s : State) (x : Reg) (at_ : Word), s.mem.wf = true → at_.toNat ≤ 4094 →
    (s.i.toNat + x.val ≤ 4095 →
      ∃ t, exec (.storeRegs x) s = .next t ∧
        fetch { t with pc := at_ } =
          .ok (wordOfBytes (byteAfterStore s x at_.toNat) (byteAfterStore s x (at_.toNat + 1)))) ∧
    (s.i.toNat + 2 ≤ 4095 →
      ∃ t, exec (.ldB x) s = .next t ∧
        fetch { t with pc := at_ } =
          .ok (wordOfBytes (byteAfterBcd s x at_.toNat) (byteAfterBcd s x (at_.toNat + 1))))

/-! ## Control flow -/

/-- R90: SYS does nothing but advance PC, whatever its operand and the Unknown policy. -/
def Obligations.SysDoesNothing : Prop :=
  ∀ (nnn : Addr12) (s : State), exec (.sys nnn) s = .next { s with pc := s.pc + 2 }

/-- R92 and R94: JP sets PC to `nnn`; JP V0 sets it to `nnn + V0`, with no wrap and no reduction modulo 4096; nothing
else changes. -/
def Obligations.JumpTargets : Prop :=
  ∀ (nnn : Addr12) (s : State),
    (∃ t, exec (.jp nnn) s = .next t ∧ t.pc.toNat = nnn.toNat ∧ t = { s with pc := t.pc }) ∧
    (∃ t, exec (.jpV0 nnn) s = .next t ∧ t.pc.toNat = nnn.toNat + (s.reg 0).toNat ∧ t.pc.toNat ≤ 0x10FE ∧
      t = { s with pc := t.pc })

/-- R93: CALL pushes the address of the following instruction and jumps; on a full stack it faults, PC and the
stack unchanged. -/
def Obligations.CallPushesReturnAddress : Prop :=
  ∀ (nnn : Addr12) (s : State),
    (s.stack.length < 16 → ∃ t, exec (.call nnn) s = .next t ∧ t.pc.toNat = nnn.toNat ∧
      t.stack = (s.pc + 2) :: s.stack ∧ sameOutside [.pc, .stack] s t) ∧
    (s.stack.length = 16 → faultsWith (.call nnn) s (.stackFault .overflow))

/-- R91: RET pops the newest entry into PC as it stands; on an empty stack it faults, PC unchanged. -/
def Obligations.RetPopsReturnAddress : Prop :=
  ∀ s : State,
    (∀ w rest, s.stack = w :: rest → ∃ t, exec .ret s = .next t ∧ t.pc = w ∧ t.stack = rest ∧
      sameOutside [.pc, .stack] s t) ∧
    (s.stack = [] → faultsWith .ret s (.stackFault .underflow))

/-- PC after a return is the address immediately following the CALL, and the stack is as before it
(95_test_vectors.md S5). -/
def Obligations.CallReturnRoundTrip : Prop :=
  ∀ (nnn : Addr12) (s : State), s.stack.length < 16 →
    ∃ t, exec (.call nnn) s = .next t ∧
      ∀ t' : State, t'.stack = t.stack → ∃ u, exec .ret t' = .next u ∧ u.pc = s.pc + 2 ∧ u.stack = s.stack

/-- A program idle at a self-jump stays there: over any interleaving of steps and ticks nothing changes but the two
timers, each down by one a tick until it is 0, and that a first step ends the boot (70_reset_and_hazards.md section 4;
60_exceptions.md section 7; the phase is the model's own, assumption 14). -/
def Obligations.IdleProgramOnlyTimersChange : Prop :=
  ∀ (acts : List Action) (s : State), s.idle → (∀ a ∈ acts, a = .step ∨ a = .tick) →
    ∃ d e, performAll acts s =
        .next { s with dt := d, st := e, phase := if Action.step ∈ acts then .running else s.phase } ∧
      d.toNat = s.dt.toNat - acts.count .tick ∧ e.toNat = s.st.toNat - acts.count .tick

/-! ## Skips -/

/-- R100 and R101: SE and SNE with a byte. -/
def Obligations.SkipsOnByte : Prop :=
  ∀ (x : Reg) (kk : Byte) (s : State),
    skipResult (.seByte x kk) s (s.reg x = kk) ∧ skipResult (.sneByte x kk) s (s.reg x ≠ kk)

/-- R102 and R103: SE and SNE with a register. -/
def Obligations.SkipsOnRegister : Prop :=
  ∀ (x y : Reg) (s : State),
    skipResult (.seReg x y) s (s.reg x = s.reg y) ∧ skipResult (.sneReg x y) s (s.reg x ≠ s.reg y)

/-- R140, R141 and R143: SKP and SKNP test the key that the low 4 bits of Vx select. -/
def Obligations.SkipsOnKey : Prop :=
  ∀ (x : Reg) (s : State),
    skipResult (.skp x) s (s.key.getLsbD ((s.reg x).toNat % 16) = true) ∧
    skipResult (.sknp x) s (s.key.getLsbD ((s.reg x).toNat % 16) = false)

/-! ## Loads, arithmetic, logic, shifts, index, random -/

/-- R110, R112 and R150: LD Vx, byte; LD Vx, Vy; LD Vx, DT. -/
def Obligations.LoadsIntoRegister : Prop :=
  ∀ (x y : Reg) (kk : Byte) (s : State),
    registerResult (.ldByte x kk) s x kk.toNat ∧ registerResult (.ldReg x y) s x (s.reg y).toNat ∧
    registerResult (.ldVxDT x) s x s.dt.toNat

/-- R111: ADD Vx, byte is modulo 256 and records no carry. -/
def Obligations.AddByteWraps : Prop :=
  ∀ (x : Reg) (kk : Byte) (s : State),
    registerResult (.addByte x kk) s x (((s.reg x).toNat + kk.toNat) % 256)

/-- R113, R114 and R115: OR, AND, XOR into Vx, VF not written as a flag. -/
def Obligations.LogicOnRegisters : Prop :=
  ∀ (x y : Reg) (s : State),
    registerResult (.orReg x y) s x ((s.reg x).toNat ||| (s.reg y).toNat) ∧
    registerResult (.andReg x y) s x ((s.reg x).toNat &&& (s.reg y).toNat) ∧
    registerResult (.xorReg x y) s x ((s.reg x).toNat ^^^ (s.reg y).toNat)

/-- R116: ADD Vx, Vy, and VF the carry, written last. -/
def Obligations.AddSetsCarry : Prop :=
  ∀ (x y : Reg) (s : State),
    flaggedResult (.addReg x y) s x (((s.reg x).toNat + (s.reg y).toNat) % 256)
      (if (s.reg x).toNat + (s.reg y).toNat > 255 then 1 else 0)

/-- R117 and R119: SUB and SUBN, and VF 1 when no borrow occurs, written last. -/
def Obligations.SubtractionsSetNoBorrow : Prop :=
  ∀ (x y : Reg) (s : State),
    flaggedResult (.sub x y) s x ((256 + (s.reg x).toNat - (s.reg y).toNat) % 256)
      (if (s.reg x).toNat ≥ (s.reg y).toNat then 1 else 0) ∧
    flaggedResult (.subn x y) s x ((256 + (s.reg y).toNat - (s.reg x).toNat) % 256)
      (if (s.reg y).toNat ≥ (s.reg x).toNat then 1 else 0)

/-- R118 and R120: SHR and SHL by one, in place, whatever the field y, and VF the bit shifted out, written last. -/
def Obligations.ShiftsSetBitOut : Prop :=
  ∀ (x y : Reg) (s : State),
    flaggedResult (.shr x y) s x ((s.reg x).toNat / 2) ((s.reg x).toNat % 2) ∧
    flaggedResult (.shl x y) s x (2 * (s.reg x).toNat % 256) ((s.reg x).toNat / 128)

/-- The identities of the arithmetic, with x not VF (42_load_and_arithmetic.md, Laws of the arithmetic). -/
def Obligations.ArithmeticIdentities : Prop :=
  ∀ (x y : Reg) (s t : State), x ≠ vf →
    (exec (.addReg x y) s = .next t →
      (t.reg x).toNat + 256 * (t.reg vf).toNat = (s.reg x).toNat + (s.reg y).toNat) ∧
    (exec (.sub x y) s = .next t →
      ((t.reg x).toNat : Int) - 256 * (1 - (t.reg vf).toNat) = (s.reg x).toNat - (s.reg y).toNat) ∧
    (exec (.subn x y) s = .next t →
      ((t.reg x).toNat : Int) - 256 * (1 - (t.reg vf).toNat) = (s.reg y).toNat - (s.reg x).toNat) ∧
    (exec (.shr x y) s = .next t → 2 * (t.reg x).toNat + (t.reg vf).toNat = (s.reg x).toNat) ∧
    (exec (.shl x y) s = .next t → (t.reg x).toNat + 256 * (t.reg vf).toNat = 2 * (s.reg x).toNat)

/-- R121, R122 and R160: LD I, addr; ADD I, Vx modulo 65536; LD F, Vx, the address of the glyph that the low 4
bits select. VF is unchanged and no memory is touched. -/
def Obligations.IndexRegisterWrites : Prop :=
  ∀ (nnn : Addr12) (x : Reg) (s : State),
    indexResult (.ldI nnn) s nnn.toNat ∧
    indexResult (.addI x) s ((s.i.toNat + (s.reg x).toNat) % 65536) ∧
    indexResult (.ldF x) s (5 * ((s.reg x).toNat % 16))

/-- RND writes a free byte masked by `kk`: bits that are 0 in `kk` are 0 in the result; one byte is drawn
(42_load_and_arithmetic.md, Random; the drawn byte is the free value of assumption 3, and the statement holds for
every value of it). -/
def Obligations.RandomIsMasked : Prop :=
  ∀ (x : Reg) (kk : Byte) (s : State),
    ∃ t, exec (.rnd x kk) s = .next t ∧ t.reg x = Config.randByte s.draws &&& kk ∧ t.reg x &&& ~~~kk = 0 ∧
      (∀ q, q ≠ x → t.reg q = s.reg q) ∧ t.draws = s.draws + 1 ∧ t.pc = s.pc + 2 ∧
      sameOutside [.v, .pc, .draws] s t

/-! ## Display -/

/-- R130: CLS turns every pixel off and raises one `present`; VF is unchanged. -/
def Obligations.ClsClearsScreen : Prop :=
  ∀ s : State, ∃ t, exec .cls s = .next t ∧ (∀ px py, t.fb.pixel px py = false) ∧
    t.events = s.events ++ [.present t.fb] ∧ t.pc = s.pc + 2 ∧ sameOutside [.display, .events, .pc] s t

/-- R131: DRW turns over exactly the pixels its sprite covers, with wraparound; VF is 1 if a lit pixel was erased
and 0 otherwise; one `present` shows the result. A sprite that reaches above 4095 faults and draws nothing; a sprite
of no rows reads nothing. -/
def Obligations.DrwXorsSprite : Prop :=
  ∀ (x y : Reg) (n : Height) (s : State),
    (n.val = 0 ∨ s.i.toNat + n.val - 1 ≤ 4095 →
      ∃ t, exec (.drw x y n) s = .next t ∧
        (∀ px py, spriteCovers s x y n px py → t.fb.pixel px py = !s.fb.pixel px py) ∧
        (∀ px py, ¬spriteCovers s x y n px py → t.fb.pixel px py = s.fb.pixel px py) ∧
        ((∃ px py, spriteCovers s x y n px py ∧ s.fb.pixel px py = true) → t.reg vf = 1) ∧
        ((∀ px py, spriteCovers s x y n px py → s.fb.pixel px py = false) → t.reg vf = 0) ∧
        (∀ r, r ≠ vf → t.reg r = s.reg r) ∧
        t.events = s.events ++ [.present t.fb] ∧ t.pc = s.pc + 2 ∧
        sameOutside [.v, .display, .events, .pc] s t) ∧
    (n.val ≠ 0 ∧ s.i.toNat + n.val - 1 > 4095 →
      faultsWith (.drw x y n) s (.outOfBounds (max s.i.toNat 4096)))

/-- Drawing the same sprite twice at the same place restores the framebuffer; when the first draw erased nothing and
drew something, the second sets VF (95_test_vectors.md S4; 43_display.md R131). -/
def Obligations.DrawingTwiceRestores : Prop :=
  ∀ (x y : Reg) (n : Height) (s : State), x ≠ vf → y ≠ vf → (n.val = 0 ∨ s.i.toNat + n.val - 1 ≤ 4095) →
    ∃ t u, exec (.drw x y n) s = .next t ∧ exec (.drw x y n) t = .next u ∧ u.fb = s.fb ∧
      ((∃ px py, spriteCovers s x y n px py) →
        (∀ px py, spriteCovers s x y n px py → s.fb.pixel px py = false) → t.reg vf = 0 ∧ u.reg vf = 1)

/-! ## Keypad wait, timers -/

/-- R142: LD Vx, K reports the smallest key that is down; with none down the step changes nothing. -/
def Obligations.KeyWait : Prop :=
  ∀ (x : Reg) (s : State),
    (∀ k : Fin 16, s.key.getLsbD k.val = true → (∀ j : Fin 16, j < k → s.key.getLsbD j.val = false) →
      registerResult (.ldVxK x) s x k.val) ∧
    ((∀ k : Fin 16, s.key.getLsbD k.val = false) → exec (.ldVxK x) s = .next s)

/-- R151 and R152: LD DT, Vx and LD ST, Vx; `tone` follows ST at once. -/
def Obligations.TimerWrites : Prop :=
  ∀ (x : Reg) (s : State),
    (∃ t, exec (.ldDTVx x) s = .next t ∧ t.dt = s.reg x ∧ t.pc = s.pc + 2 ∧ sameOutside [.delay, .pc] s t) ∧
    (∃ t, exec (.ldSTVx x) s = .next t ∧ t.st = s.reg x ∧ t.pc = s.pc + 2 ∧
      (tone t = true ↔ (s.reg x).toNat > 0) ∧ sameOutside [.sound, .pc] s t)

/-- R180: a tick decrements each nonzero timer by one and touches nothing else; it does nothing while halted. -/
def Obligations.TickDecrementsTimers : Prop :=
  ∀ s : State,
    (s.halt = none → ∃ t, perform .tick s = .next t ∧
      (s.dt.toNat > 0 → t.dt.toNat + 1 = s.dt.toNat) ∧ (s.dt.toNat = 0 → t.dt.toNat = 0) ∧
      (s.st.toNat > 0 → t.st.toNat + 1 = s.st.toNat) ∧ (s.st.toNat = 0 → t.st.toNat = 0) ∧
      sameOutside [.delay, .sound] s t) ∧
    (s.halt ≠ none → perform .tick s = .next s)

/-- After `n` ticks each timer is down by `n` and stays at 0: no underflow, and DT = 5 is 0 after five ticks and
after (95_test_vectors.md S8). -/
def Obligations.TimersRunDownToZero : Prop :=
  ∀ (n : Nat) (s : State), s.halt = none →
    ∃ t, performAll (List.replicate n .tick) s = .next t ∧ t.dt.toNat = s.dt.toNat - n ∧
      t.st.toNat = s.st.toNat - n ∧ (tone t = true ↔ s.st.toNat > n) ∧ sameOutside [.delay, .sound] s t

/-! ## Font, BCD and block moves -/

/-- R161: LD B stores the three decimal digits of Vx, hundreds at I; with an address above 4095 it faults and
writes nothing. -/
def Obligations.BcdStore : Prop :=
  ∀ (x : Reg) (s : State), s.mem.wf = true →
    (s.i.toNat + 2 ≤ 4095 →
      ∃ t, exec (.ldB x) s = .next t ∧
        (t.mem.peek s.i.toNat).toNat = (s.reg x).toNat / 100 ∧
        (t.mem.peek (s.i.toNat + 1)).toNat = (s.reg x).toNat / 10 % 10 ∧
        (t.mem.peek (s.i.toNat + 2)).toNat = (s.reg x).toNat % 10 ∧
        (∀ a, a < s.i.toNat ∨ s.i.toNat + 2 < a → t.mem.peek a = s.mem.peek a) ∧
        t.mem.wf = true ∧ t.pc = s.pc + 2 ∧ sameOutside [.memory, .pc] s t) ∧
    (s.i.toNat + 2 > 4095 → faultsWith (.ldB x) s (.outOfBounds (max s.i.toNat 4096)))

/-- R162: LD [I], Vx stores V0 to Vx from I upward, I unchanged; with an address above 4095 it faults and writes
nothing. -/
def Obligations.BlockStore : Prop :=
  ∀ (x : Reg) (s : State), s.mem.wf = true →
    (s.i.toNat + x.val ≤ 4095 →
      ∃ t, exec (.storeRegs x) s = .next t ∧
        (∀ k : Reg, k ≤ x → t.mem.peek (s.i.toNat + k.val) = s.reg k) ∧
        (∀ a, a < s.i.toNat ∨ s.i.toNat + x.val < a → t.mem.peek a = s.mem.peek a) ∧
        t.mem.wf = true ∧ t.pc = s.pc + 2 ∧ sameOutside [.memory, .pc] s t) ∧
    (s.i.toNat + x.val > 4095 → faultsWith (.storeRegs x) s (.outOfBounds (max s.i.toNat 4096)))

/-- R163: LD Vx, [I] loads V0 to Vx from I upward, I and the higher registers unchanged; with an address above 4095
it faults and writes no register. -/
def Obligations.BlockLoad : Prop :=
  ∀ (x : Reg) (s : State),
    (s.i.toNat + x.val ≤ 4095 →
      ∃ t, exec (.loadRegs x) s = .next t ∧
        (∀ k : Reg, k ≤ x → t.reg k = s.mem.peek (s.i.toNat + k.val)) ∧
        (∀ k : Reg, x < k → t.reg k = s.reg k) ∧ t.pc = s.pc + 2 ∧ sameOutside [.v, .pc] s t) ∧
    (s.i.toNat + x.val > 4095 → faultsWith (.loadRegs x) s (.outOfBounds (max s.i.toNat 4096)))

/-- What a block store put in memory a block load brings back: the registers up to Vx are those stored
(46_memory_block.md R162 and R163 together). -/
def Obligations.BlockStoreThenLoad : Prop :=
  ∀ (x : Reg) (s : State), s.mem.wf = true → s.i.toNat + x.val ≤ 4095 →
    ∃ t, exec (.storeRegs x) s = .next t ∧
      ∀ u : State, u.mem = t.mem → u.i = s.i →
        ∃ w, exec (.loadRegs x) u = .next w ∧ (∀ k : Reg, k ≤ x → w.reg k = s.reg k) ∧
          ∀ k : Reg, x < k → w.reg k = u.reg k

/-! ## Runs: what is offered, and progress -/

/-- During a run only the engine writes memory, nothing changes STRICT, and only a reset ends the run
(20_memory.md sections 5 and 8; 10_state.md sections 9 and 10). A host that keeps the order of R202 asks for nothing that is
not offered (70_reset_and_hazards.md section 3; what is not offered does nothing: assumption 14). -/
def Obligations.RunOffersNoLoad : Prop :=
  (∀ (a : Action) (s t : State), s.phase = .running → a ≠ .reset → perform a s = .next t →
    t.phase = .running ∧ t.strict = s.strict ∧ (a ≠ .step → ∀ x, t.mem.peek x = s.mem.peek x)) ∧
  ∀ (acts : List Action) (g : BootStage) (s : State), (g ≠ .running → s.phase = .booting) →
    bootOrder g acts = true → allOffered acts s = true

/-- A wait for DT to reach 0 ends: in every infinite run of steps, ticks and keypad writes in which ticks keep coming,
that never halts and never executes LD DT, DT is 0 from some moment on (60_exceptions.md section 7, R181: progress). -/
def Obligations.ProgressRunsDelayTimerOut : Prop :=
  ∀ (sch : Schedule) (s : State), progress sch s →
    (∀ n, sch n = .step ∨ sch n = .tick ∨ ∃ k, sch n = .setKeys k) →
    (∀ n t, runTo sch s n = .next t → t.halt = none ∧ (sch n = .step →
      ∀ x, decode (wordOfBytes (t.mem.peek t.pc.toNat) (t.mem.peek (t.pc.toNat + 1))) ≠ .instr (.ldDTVx x))) →
    ∃ n, ∀ m, n ≤ m → ∃ t, runTo sch s m = .next t ∧ t.dt = 0
end

