-- ==== Sys2Proof/Laws/Decode.lean ====
section
/-! SUPPORT. The fields of a word as numbers, and the fields of a packed word (30_encoding.md R71, R72). -/

namespace Sys2Proof

/-! ## Fields as numbers -/

theorem fieldOp_eq (w : Word) : fieldOp w = w.toNat / 4096 := by
  simp only [fieldOp, BitVec.extractLsb'_toNat, Nat.shiftRight_eq_div_pow]
  omega

theorem fieldX_val (w : Word) : (fieldX w).val = w.toNat / 256 % 16 := by
  simp [fieldX, Nat.shiftRight_eq_div_pow]

theorem fieldY_val (w : Word) : (fieldY w).val = w.toNat / 16 % 16 := by
  simp [fieldY, Nat.shiftRight_eq_div_pow]

theorem fieldN_val (w : Word) : (fieldN w).val = w.toNat % 16 := by
  simp [fieldN]

theorem fieldKK_toNat (w : Word) : (fieldKK w).toNat = w.toNat % 256 := by
  simp [fieldKK]

theorem fieldNNN_toNat (w : Word) : (fieldNNN w).toNat = w.toNat % 4096 := by
  simp [fieldNNN]

/-! ## Packed words as numbers -/

theorem packNNN_toNat (op : BitVec 4) (nnn : Addr12) :
    (packNNN op nnn).toNat = 4096 * op.toNat + nnn.toNat := by
  have h := nnn.isLt
  show (op ++ nnn).toNat = _
  rw [BitVec.toNat_append, ← Nat.shiftLeft_add_eq_or_of_lt h, Nat.shiftLeft_eq]
  omega

theorem packXKK_toNat (op : BitVec 4) (x : Reg) (kk : Byte) :
    (packXKK op x kk).toNat = 4096 * op.toNat + 256 * x.val + kk.toNat := by
  have h := kk.isLt
  have hx : (BitVec.ofFin (w := 4) x).toNat < 2 ^ 4 := (BitVec.ofFin (w := 4) x).isLt
  have hv : (BitVec.ofFin (w := 4) x).toNat = x.val := rfl
  show (op ++ BitVec.ofFin (w := 4) x ++ kk).toNat = _
  rw [BitVec.toNat_append, ← Nat.shiftLeft_add_eq_or_of_lt h, Nat.shiftLeft_eq, BitVec.toNat_append,
    ← Nat.shiftLeft_add_eq_or_of_lt hx, Nat.shiftLeft_eq, hv]
  omega

theorem packXYN_toNat (op : BitVec 4) (x y : Reg) (n : Height) :
    (packXYN op x y n).toNat = 4096 * op.toNat + 256 * x.val + 16 * y.val + n.val := by
  have hx : (BitVec.ofFin (w := 4) x).toNat < 2 ^ 4 := (BitVec.ofFin (w := 4) x).isLt
  have hy : (BitVec.ofFin (w := 4) y).toNat < 2 ^ 4 := (BitVec.ofFin (w := 4) y).isLt
  have hn : (BitVec.ofFin (w := 4) n).toNat < 2 ^ 4 := (BitVec.ofFin (w := 4) n).isLt
  have vx : (BitVec.ofFin (w := 4) x).toNat = x.val := rfl
  have vy : (BitVec.ofFin (w := 4) y).toNat = y.val := rfl
  have vn : (BitVec.ofFin (w := 4) n).toNat = n.val := rfl
  show (op ++ BitVec.ofFin (w := 4) x ++ BitVec.ofFin (w := 4) y ++ BitVec.ofFin (w := 4) n).toNat = _
  rw [BitVec.toNat_append, ← Nat.shiftLeft_add_eq_or_of_lt hn, Nat.shiftLeft_eq, BitVec.toNat_append,
    ← Nat.shiftLeft_add_eq_or_of_lt hy, Nat.shiftLeft_eq, BitVec.toNat_append,
    ← Nat.shiftLeft_add_eq_or_of_lt hx, Nat.shiftLeft_eq, vx, vy, vn]
  omega

/-! ## Fields of packed words -/

@[simp] theorem fieldOp_packNNN (op : BitVec 4) (nnn : Addr12) : fieldOp (packNNN op nnn) = op.toNat := by
  rw [fieldOp_eq, packNNN_toNat]; have := nnn.isLt; omega

@[simp] theorem fieldNNN_packNNN (op : BitVec 4) (nnn : Addr12) : fieldNNN (packNNN op nnn) = nnn := by
  apply BitVec.eq_of_toNat_eq
  rw [fieldNNN_toNat, packNNN_toNat]; have := nnn.isLt; omega

@[simp] theorem fieldOp_packXKK (op : BitVec 4) (x : Reg) (kk : Byte) :
    fieldOp (packXKK op x kk) = op.toNat := by
  rw [fieldOp_eq, packXKK_toNat]; have := kk.isLt; have := x.isLt; omega

@[simp] theorem fieldX_packXKK (op : BitVec 4) (x : Reg) (kk : Byte) : fieldX (packXKK op x kk) = x := by
  apply Fin.ext
  rw [fieldX_val, packXKK_toNat]; have := kk.isLt; have := x.isLt; omega

@[simp] theorem fieldKK_packXKK (op : BitVec 4) (x : Reg) (kk : Byte) : fieldKK (packXKK op x kk) = kk := by
  apply BitVec.eq_of_toNat_eq
  rw [fieldKK_toNat, packXKK_toNat]; have := kk.isLt; have := x.isLt; omega

@[simp] theorem fieldOp_packXYN (op : BitVec 4) (x y : Reg) (n : Height) :
    fieldOp (packXYN op x y n) = op.toNat := by
  rw [fieldOp_eq, packXYN_toNat]; have := x.isLt; have := y.isLt; have := n.isLt; omega

@[simp] theorem fieldX_packXYN (op : BitVec 4) (x y : Reg) (n : Height) : fieldX (packXYN op x y n) = x := by
  apply Fin.ext
  rw [fieldX_val, packXYN_toNat]; have := x.isLt; have := y.isLt; have := n.isLt; omega

@[simp] theorem fieldY_packXYN (op : BitVec 4) (x y : Reg) (n : Height) : fieldY (packXYN op x y n) = y := by
  apply Fin.ext
  rw [fieldY_val, packXYN_toNat]; have := x.isLt; have := y.isLt; have := n.isLt; omega

@[simp] theorem fieldN_packXYN (op : BitVec 4) (x y : Reg) (n : Height) : fieldN (packXYN op x y n) = n := by
  apply Fin.ext
  rw [fieldN_val, packXYN_toNat]; have := x.isLt; have := y.isLt; have := n.isLt; omega

/-! ## Masking, as numbers -/

/-- The mask of formats NNN, XKK and XYN keeps the high nibble. -/
theorem and_F000_toNat (w : Word) : (w &&& 0xF000).toNat = 4096 * (w.toNat / 4096) := by
  have h : w &&& (0xF000 : Word) = (w >>> 12) <<< 12 := by
    apply BitVec.eq_of_getLsbD_eq
    intro i hi
    have : ∀ k : Fin 16, (0xF000 : Word).getLsbD k.val = decide (12 ≤ k.val) := by decide
    have hk := this ⟨i, hi⟩
    simp only [BitVec.getLsbD_and, BitVec.getLsbD_shiftLeft, BitVec.getLsbD_ushiftRight, hi, decide_true, Bool.true_and]
    simp only at hk
    rw [hk]
    by_cases h12 : 12 ≤ i
    · simp [h12, show ¬ i < 12 by omega, show 12 + (i - 12) = i by omega]
    · simp [h12, show i < 12 by omega]
  rw [h, BitVec.toNat_shiftLeft, BitVec.toNat_ushiftRight, Nat.shiftLeft_eq, Nat.shiftRight_eq_div_pow]
  have := w.isLt
  omega

theorem and_000F_toNat (w : Word) : (w &&& 0x000F).toNat = w.toNat % 16 := by
  rw [BitVec.toNat_and]
  exact Nat.and_two_pow_sub_one_eq_mod w.toNat 4

theorem and_00FF_toNat (w : Word) : (w &&& 0x00FF).toNat = w.toNat % 256 := by
  rw [BitVec.toNat_and]
  exact Nat.and_two_pow_sub_one_eq_mod w.toNat 8

/-- Two disjoint masks add up. -/
theorem and_or_toNat (w a b : Word) (h : a &&& b = 0) :
    (w &&& (a ||| b)).toNat = (w &&& a).toNat + (w &&& b).toNat := by
  have hd : (w &&& a) &&& (w &&& b) = 0 := by
    rw [BitVec.and_assoc, ← BitVec.and_assoc a, BitVec.and_comm a w, BitVec.and_assoc w a b, h]
    simp
  have hor : w &&& (a ||| b) = (w &&& a) + (w &&& b) := by
    rw [BitVec.add_eq_or_of_and_eq_zero _ _ hd]
    apply BitVec.eq_of_getLsbD_eq
    intro i _
    simp [Bool.and_or_distrib_left]
  rw [hor, BitVec.toNat_add_of_and_eq_zero hd]

/-- The mask of format XY keeps the high and the low nibble. -/
theorem and_F00F_toNat (w : Word) : (w &&& 0xF00F).toNat = 4096 * (w.toNat / 4096) + w.toNat % 16 := by
  rw [← and_F000_toNat, ← and_000F_toNat]
  exact and_or_toNat w 0xF000 0x000F (by decide)

/-- The mask of format X keeps the high nibble and the low byte. -/
theorem and_F0FF_toNat (w : Word) : (w &&& 0xF0FF).toNat = 4096 * (w.toNat / 4096) + w.toNat % 256 := by
  rw [← and_F000_toNat, ← and_00FF_toNat]
  exact and_or_toNat w 0xF000 0x00FF (by decide)

/-- The mask of format FIXED keeps every bit. -/
theorem and_FFFF (w : Word) : w &&& 0xFFFF = w := by
  have : (0xFFFF : Word) = BitVec.allOnes 16 := by decide
  rw [this, BitVec.and_allOnes]

/-! ## A packed word under the masks -/

theorem packNNN_mask (op : BitVec 4) (nnn : Addr12) : packNNN op nnn &&& 0xF000 = packNNN op 0 := by
  apply BitVec.eq_of_toNat_eq
  have := nnn.isLt
  rw [and_F000_toNat, packNNN_toNat, packNNN_toNat, show (0 : Addr12).toNat = 0 from rfl]
  omega

theorem packXKK_mask (op : BitVec 4) (x : Reg) (kk : Byte) : packXKK op x kk &&& 0xF000 = packNNN op 0 := by
  apply BitVec.eq_of_toNat_eq
  have := kk.isLt
  rw [and_F000_toNat, packXKK_toNat, packNNN_toNat, show (0 : Addr12).toNat = 0 from rfl]
  omega

theorem packXKK_maskLow (op : BitVec 4) (x : Reg) (kk : Byte) :
    packXKK op x kk &&& 0xF0FF = packXKK op 0 kk := by
  apply BitVec.eq_of_toNat_eq
  have := kk.isLt
  rw [and_F0FF_toNat, packXKK_toNat, packXKK_toNat, show (0 : Reg).val = 0 from rfl]
  omega

theorem packXYN_mask (op : BitVec 4) (x y : Reg) (n : Height) : packXYN op x y n &&& 0xF000 = packNNN op 0 := by
  apply BitVec.eq_of_toNat_eq
  rw [and_F000_toNat, packXYN_toNat, packNNN_toNat, show (0 : Addr12).toNat = 0 from rfl]
  omega

theorem packXYN_maskLow (op : BitVec 4) (x y : Reg) (n : Height) :
    packXYN op x y n &&& 0xF00F = packXYN op 0 0 n := by
  apply BitVec.eq_of_toNat_eq
  rw [and_F00F_toNat, packXYN_toNat, packXYN_toNat, show (0 : Reg).val = 0 from rfl]
  omega

end Sys2Proof
end

