-- ==== Sys2Proof/Laws/State.lean ====
section
/-! SUPPORT. One lemma per field and update of State, and the registers read after each update. -/

namespace Sys2Proof.Machine

@[simp] theorem State.nextPc_eq (s : State) : s.nextPc = s.pc + 2 := rfl
@[simp] theorem State.skipPc_eq (s : State) : s.skipPc = s.pc + 4 := rfl

/-! ### setReg -/

@[simp] theorem State.setReg_v (s : State) (r : Reg) (b : Byte) : (s.setReg r b).v = s.v.set r.val b := rfl
@[simp] theorem State.setReg_i (s : State) (r : Reg) (b : Byte) : (s.setReg r b).i = s.i := rfl
@[simp] theorem State.setReg_pc (s : State) (r : Reg) (b : Byte) : (s.setReg r b).pc = s.pc := rfl
@[simp] theorem State.setReg_stack (s : State) (r : Reg) (b : Byte) : (s.setReg r b).stack = s.stack := rfl
@[simp] theorem State.setReg_dt (s : State) (r : Reg) (b : Byte) : (s.setReg r b).dt = s.dt := rfl
@[simp] theorem State.setReg_st (s : State) (r : Reg) (b : Byte) : (s.setReg r b).st = s.st := rfl
@[simp] theorem State.setReg_mem (s : State) (r : Reg) (b : Byte) : (s.setReg r b).mem = s.mem := rfl
@[simp] theorem State.setReg_fb (s : State) (r : Reg) (b : Byte) : (s.setReg r b).fb = s.fb := rfl
@[simp] theorem State.setReg_key (s : State) (r : Reg) (b : Byte) : (s.setReg r b).key = s.key := rfl
@[simp] theorem State.setReg_halt (s : State) (r : Reg) (b : Byte) : (s.setReg r b).halt = s.halt := rfl
@[simp] theorem State.setReg_strict (s : State) (r : Reg) (b : Byte) : (s.setReg r b).strict = s.strict := rfl
@[simp] theorem State.setReg_events (s : State) (r : Reg) (b : Byte) : (s.setReg r b).events = s.events := rfl
@[simp] theorem State.setReg_draws (s : State) (r : Reg) (b : Byte) : (s.setReg r b).draws = s.draws := rfl
@[simp] theorem State.setReg_agenda (s : State) (r : Reg) (b : Byte) : (s.setReg r b).agenda = s.agenda := rfl
@[simp] theorem State.setReg_phase (s : State) (r : Reg) (b : Byte) : (s.setReg r b).phase = s.phase := rfl

/-! ### setI -/

@[simp] theorem State.setI_v (s : State) (w : Word) : (s.setI w).v = s.v := rfl
@[simp] theorem State.setI_i (s : State) (w : Word) : (s.setI w).i = w := rfl
@[simp] theorem State.setI_pc (s : State) (w : Word) : (s.setI w).pc = s.pc := rfl
@[simp] theorem State.setI_stack (s : State) (w : Word) : (s.setI w).stack = s.stack := rfl
@[simp] theorem State.setI_dt (s : State) (w : Word) : (s.setI w).dt = s.dt := rfl
@[simp] theorem State.setI_st (s : State) (w : Word) : (s.setI w).st = s.st := rfl
@[simp] theorem State.setI_mem (s : State) (w : Word) : (s.setI w).mem = s.mem := rfl
@[simp] theorem State.setI_fb (s : State) (w : Word) : (s.setI w).fb = s.fb := rfl
@[simp] theorem State.setI_key (s : State) (w : Word) : (s.setI w).key = s.key := rfl
@[simp] theorem State.setI_halt (s : State) (w : Word) : (s.setI w).halt = s.halt := rfl
@[simp] theorem State.setI_strict (s : State) (w : Word) : (s.setI w).strict = s.strict := rfl
@[simp] theorem State.setI_events (s : State) (w : Word) : (s.setI w).events = s.events := rfl
@[simp] theorem State.setI_draws (s : State) (w : Word) : (s.setI w).draws = s.draws := rfl
@[simp] theorem State.setI_agenda (s : State) (w : Word) : (s.setI w).agenda = s.agenda := rfl
@[simp] theorem State.setI_phase (s : State) (w : Word) : (s.setI w).phase = s.phase := rfl
@[simp] theorem State.setI_reg (s : State) (w : Word) (q : Reg) : (s.setI w).reg q = s.reg q := rfl

/-! ### setPc -/

@[simp] theorem State.setPc_v (s : State) (w : Word) : (s.setPc w).v = s.v := rfl
@[simp] theorem State.setPc_i (s : State) (w : Word) : (s.setPc w).i = s.i := rfl
@[simp] theorem State.setPc_pc (s : State) (w : Word) : (s.setPc w).pc = w := rfl
@[simp] theorem State.setPc_stack (s : State) (w : Word) : (s.setPc w).stack = s.stack := rfl
@[simp] theorem State.setPc_dt (s : State) (w : Word) : (s.setPc w).dt = s.dt := rfl
@[simp] theorem State.setPc_st (s : State) (w : Word) : (s.setPc w).st = s.st := rfl
@[simp] theorem State.setPc_mem (s : State) (w : Word) : (s.setPc w).mem = s.mem := rfl
@[simp] theorem State.setPc_fb (s : State) (w : Word) : (s.setPc w).fb = s.fb := rfl
@[simp] theorem State.setPc_key (s : State) (w : Word) : (s.setPc w).key = s.key := rfl
@[simp] theorem State.setPc_halt (s : State) (w : Word) : (s.setPc w).halt = s.halt := rfl
@[simp] theorem State.setPc_strict (s : State) (w : Word) : (s.setPc w).strict = s.strict := rfl
@[simp] theorem State.setPc_events (s : State) (w : Word) : (s.setPc w).events = s.events := rfl
@[simp] theorem State.setPc_draws (s : State) (w : Word) : (s.setPc w).draws = s.draws := rfl
@[simp] theorem State.setPc_agenda (s : State) (w : Word) : (s.setPc w).agenda = s.agenda := rfl
@[simp] theorem State.setPc_phase (s : State) (w : Word) : (s.setPc w).phase = s.phase := rfl
@[simp] theorem State.setPc_reg (s : State) (w : Word) (q : Reg) : (s.setPc w).reg q = s.reg q := rfl

/-! ### setStack -/

@[simp] theorem State.setStack_v (s : State) (k : List Word) : (s.setStack k).v = s.v := rfl
@[simp] theorem State.setStack_i (s : State) (k : List Word) : (s.setStack k).i = s.i := rfl
@[simp] theorem State.setStack_pc (s : State) (k : List Word) : (s.setStack k).pc = s.pc := rfl
@[simp] theorem State.setStack_stack (s : State) (k : List Word) : (s.setStack k).stack = k := rfl
@[simp] theorem State.setStack_dt (s : State) (k : List Word) : (s.setStack k).dt = s.dt := rfl
@[simp] theorem State.setStack_st (s : State) (k : List Word) : (s.setStack k).st = s.st := rfl
@[simp] theorem State.setStack_mem (s : State) (k : List Word) : (s.setStack k).mem = s.mem := rfl
@[simp] theorem State.setStack_fb (s : State) (k : List Word) : (s.setStack k).fb = s.fb := rfl
@[simp] theorem State.setStack_key (s : State) (k : List Word) : (s.setStack k).key = s.key := rfl
@[simp] theorem State.setStack_halt (s : State) (k : List Word) : (s.setStack k).halt = s.halt := rfl
@[simp] theorem State.setStack_strict (s : State) (k : List Word) : (s.setStack k).strict = s.strict := rfl
@[simp] theorem State.setStack_events (s : State) (k : List Word) : (s.setStack k).events = s.events := rfl
@[simp] theorem State.setStack_draws (s : State) (k : List Word) : (s.setStack k).draws = s.draws := rfl
@[simp] theorem State.setStack_agenda (s : State) (k : List Word) : (s.setStack k).agenda = s.agenda := rfl
@[simp] theorem State.setStack_phase (s : State) (k : List Word) : (s.setStack k).phase = s.phase := rfl
@[simp] theorem State.setStack_reg (s : State) (k : List Word) (q : Reg) : (s.setStack k).reg q = s.reg q := rfl

/-! ### setDt -/

@[simp] theorem State.setDt_v (s : State) (b : Byte) : (s.setDt b).v = s.v := rfl
@[simp] theorem State.setDt_i (s : State) (b : Byte) : (s.setDt b).i = s.i := rfl
@[simp] theorem State.setDt_pc (s : State) (b : Byte) : (s.setDt b).pc = s.pc := rfl
@[simp] theorem State.setDt_stack (s : State) (b : Byte) : (s.setDt b).stack = s.stack := rfl
@[simp] theorem State.setDt_dt (s : State) (b : Byte) : (s.setDt b).dt = b := rfl
@[simp] theorem State.setDt_st (s : State) (b : Byte) : (s.setDt b).st = s.st := rfl
@[simp] theorem State.setDt_mem (s : State) (b : Byte) : (s.setDt b).mem = s.mem := rfl
@[simp] theorem State.setDt_fb (s : State) (b : Byte) : (s.setDt b).fb = s.fb := rfl
@[simp] theorem State.setDt_key (s : State) (b : Byte) : (s.setDt b).key = s.key := rfl
@[simp] theorem State.setDt_halt (s : State) (b : Byte) : (s.setDt b).halt = s.halt := rfl
@[simp] theorem State.setDt_strict (s : State) (b : Byte) : (s.setDt b).strict = s.strict := rfl
@[simp] theorem State.setDt_events (s : State) (b : Byte) : (s.setDt b).events = s.events := rfl
@[simp] theorem State.setDt_draws (s : State) (b : Byte) : (s.setDt b).draws = s.draws := rfl
@[simp] theorem State.setDt_agenda (s : State) (b : Byte) : (s.setDt b).agenda = s.agenda := rfl
@[simp] theorem State.setDt_phase (s : State) (b : Byte) : (s.setDt b).phase = s.phase := rfl
@[simp] theorem State.setDt_reg (s : State) (b : Byte) (q : Reg) : (s.setDt b).reg q = s.reg q := rfl

/-! ### setSt -/

@[simp] theorem State.setSt_v (s : State) (b : Byte) : (s.setSt b).v = s.v := rfl
@[simp] theorem State.setSt_i (s : State) (b : Byte) : (s.setSt b).i = s.i := rfl
@[simp] theorem State.setSt_pc (s : State) (b : Byte) : (s.setSt b).pc = s.pc := rfl
@[simp] theorem State.setSt_stack (s : State) (b : Byte) : (s.setSt b).stack = s.stack := rfl
@[simp] theorem State.setSt_dt (s : State) (b : Byte) : (s.setSt b).dt = s.dt := rfl
@[simp] theorem State.setSt_st (s : State) (b : Byte) : (s.setSt b).st = b := rfl
@[simp] theorem State.setSt_mem (s : State) (b : Byte) : (s.setSt b).mem = s.mem := rfl
@[simp] theorem State.setSt_fb (s : State) (b : Byte) : (s.setSt b).fb = s.fb := rfl
@[simp] theorem State.setSt_key (s : State) (b : Byte) : (s.setSt b).key = s.key := rfl
@[simp] theorem State.setSt_halt (s : State) (b : Byte) : (s.setSt b).halt = s.halt := rfl
@[simp] theorem State.setSt_strict (s : State) (b : Byte) : (s.setSt b).strict = s.strict := rfl
@[simp] theorem State.setSt_events (s : State) (b : Byte) : (s.setSt b).events = s.events := rfl
@[simp] theorem State.setSt_draws (s : State) (b : Byte) : (s.setSt b).draws = s.draws := rfl
@[simp] theorem State.setSt_agenda (s : State) (b : Byte) : (s.setSt b).agenda = s.agenda := rfl
@[simp] theorem State.setSt_phase (s : State) (b : Byte) : (s.setSt b).phase = s.phase := rfl
@[simp] theorem State.setSt_reg (s : State) (b : Byte) (q : Reg) : (s.setSt b).reg q = s.reg q := rfl

/-! ### setMem -/

@[simp] theorem State.setMem_v (s : State) (m : Memory) : (s.setMem m).v = s.v := rfl
@[simp] theorem State.setMem_i (s : State) (m : Memory) : (s.setMem m).i = s.i := rfl
@[simp] theorem State.setMem_pc (s : State) (m : Memory) : (s.setMem m).pc = s.pc := rfl
@[simp] theorem State.setMem_stack (s : State) (m : Memory) : (s.setMem m).stack = s.stack := rfl
@[simp] theorem State.setMem_dt (s : State) (m : Memory) : (s.setMem m).dt = s.dt := rfl
@[simp] theorem State.setMem_st (s : State) (m : Memory) : (s.setMem m).st = s.st := rfl
@[simp] theorem State.setMem_mem (s : State) (m : Memory) : (s.setMem m).mem = m := rfl
@[simp] theorem State.setMem_fb (s : State) (m : Memory) : (s.setMem m).fb = s.fb := rfl
@[simp] theorem State.setMem_key (s : State) (m : Memory) : (s.setMem m).key = s.key := rfl
@[simp] theorem State.setMem_halt (s : State) (m : Memory) : (s.setMem m).halt = s.halt := rfl
@[simp] theorem State.setMem_strict (s : State) (m : Memory) : (s.setMem m).strict = s.strict := rfl
@[simp] theorem State.setMem_events (s : State) (m : Memory) : (s.setMem m).events = s.events := rfl
@[simp] theorem State.setMem_draws (s : State) (m : Memory) : (s.setMem m).draws = s.draws := rfl
@[simp] theorem State.setMem_agenda (s : State) (m : Memory) : (s.setMem m).agenda = s.agenda := rfl
@[simp] theorem State.setMem_phase (s : State) (m : Memory) : (s.setMem m).phase = s.phase := rfl
@[simp] theorem State.setMem_reg (s : State) (m : Memory) (q : Reg) : (s.setMem m).reg q = s.reg q := rfl

/-! ### setFb -/

@[simp] theorem State.setFb_v (s : State) (f : Framebuffer) : (s.setFb f).v = s.v := rfl
@[simp] theorem State.setFb_i (s : State) (f : Framebuffer) : (s.setFb f).i = s.i := rfl
@[simp] theorem State.setFb_pc (s : State) (f : Framebuffer) : (s.setFb f).pc = s.pc := rfl
@[simp] theorem State.setFb_stack (s : State) (f : Framebuffer) : (s.setFb f).stack = s.stack := rfl
@[simp] theorem State.setFb_dt (s : State) (f : Framebuffer) : (s.setFb f).dt = s.dt := rfl
@[simp] theorem State.setFb_st (s : State) (f : Framebuffer) : (s.setFb f).st = s.st := rfl
@[simp] theorem State.setFb_mem (s : State) (f : Framebuffer) : (s.setFb f).mem = s.mem := rfl
@[simp] theorem State.setFb_fb (s : State) (f : Framebuffer) : (s.setFb f).fb = f := rfl
@[simp] theorem State.setFb_key (s : State) (f : Framebuffer) : (s.setFb f).key = s.key := rfl
@[simp] theorem State.setFb_halt (s : State) (f : Framebuffer) : (s.setFb f).halt = s.halt := rfl
@[simp] theorem State.setFb_strict (s : State) (f : Framebuffer) : (s.setFb f).strict = s.strict := rfl
@[simp] theorem State.setFb_events (s : State) (f : Framebuffer) : (s.setFb f).events = s.events := rfl
@[simp] theorem State.setFb_draws (s : State) (f : Framebuffer) : (s.setFb f).draws = s.draws := rfl
@[simp] theorem State.setFb_agenda (s : State) (f : Framebuffer) : (s.setFb f).agenda = s.agenda := rfl
@[simp] theorem State.setFb_phase (s : State) (f : Framebuffer) : (s.setFb f).phase = s.phase := rfl
@[simp] theorem State.setFb_reg (s : State) (f : Framebuffer) (q : Reg) : (s.setFb f).reg q = s.reg q := rfl

/-! ### setKey -/

@[simp] theorem State.setKey_v (s : State) (k : BitVec 16) : (s.setKey k).v = s.v := rfl
@[simp] theorem State.setKey_i (s : State) (k : BitVec 16) : (s.setKey k).i = s.i := rfl
@[simp] theorem State.setKey_pc (s : State) (k : BitVec 16) : (s.setKey k).pc = s.pc := rfl
@[simp] theorem State.setKey_stack (s : State) (k : BitVec 16) : (s.setKey k).stack = s.stack := rfl
@[simp] theorem State.setKey_dt (s : State) (k : BitVec 16) : (s.setKey k).dt = s.dt := rfl
@[simp] theorem State.setKey_st (s : State) (k : BitVec 16) : (s.setKey k).st = s.st := rfl
@[simp] theorem State.setKey_mem (s : State) (k : BitVec 16) : (s.setKey k).mem = s.mem := rfl
@[simp] theorem State.setKey_fb (s : State) (k : BitVec 16) : (s.setKey k).fb = s.fb := rfl
@[simp] theorem State.setKey_key (s : State) (k : BitVec 16) : (s.setKey k).key = k := rfl
@[simp] theorem State.setKey_halt (s : State) (k : BitVec 16) : (s.setKey k).halt = s.halt := rfl
@[simp] theorem State.setKey_strict (s : State) (k : BitVec 16) : (s.setKey k).strict = s.strict := rfl
@[simp] theorem State.setKey_events (s : State) (k : BitVec 16) : (s.setKey k).events = s.events := rfl
@[simp] theorem State.setKey_draws (s : State) (k : BitVec 16) : (s.setKey k).draws = s.draws := rfl
@[simp] theorem State.setKey_agenda (s : State) (k : BitVec 16) : (s.setKey k).agenda = s.agenda := rfl
@[simp] theorem State.setKey_phase (s : State) (k : BitVec 16) : (s.setKey k).phase = s.phase := rfl
@[simp] theorem State.setKey_reg (s : State) (k : BitVec 16) (q : Reg) : (s.setKey k).reg q = s.reg q := rfl

/-! ### setHalt -/

@[simp] theorem State.setHalt_v (s : State) (h : Option Fault) : (s.setHalt h).v = s.v := rfl
@[simp] theorem State.setHalt_i (s : State) (h : Option Fault) : (s.setHalt h).i = s.i := rfl
@[simp] theorem State.setHalt_pc (s : State) (h : Option Fault) : (s.setHalt h).pc = s.pc := rfl
@[simp] theorem State.setHalt_stack (s : State) (h : Option Fault) : (s.setHalt h).stack = s.stack := rfl
@[simp] theorem State.setHalt_dt (s : State) (h : Option Fault) : (s.setHalt h).dt = s.dt := rfl
@[simp] theorem State.setHalt_st (s : State) (h : Option Fault) : (s.setHalt h).st = s.st := rfl
@[simp] theorem State.setHalt_mem (s : State) (h : Option Fault) : (s.setHalt h).mem = s.mem := rfl
@[simp] theorem State.setHalt_fb (s : State) (h : Option Fault) : (s.setHalt h).fb = s.fb := rfl
@[simp] theorem State.setHalt_key (s : State) (h : Option Fault) : (s.setHalt h).key = s.key := rfl
@[simp] theorem State.setHalt_halt (s : State) (h : Option Fault) : (s.setHalt h).halt = h := rfl
@[simp] theorem State.setHalt_strict (s : State) (h : Option Fault) : (s.setHalt h).strict = s.strict := rfl
@[simp] theorem State.setHalt_events (s : State) (h : Option Fault) : (s.setHalt h).events = s.events := rfl
@[simp] theorem State.setHalt_draws (s : State) (h : Option Fault) : (s.setHalt h).draws = s.draws := rfl
@[simp] theorem State.setHalt_agenda (s : State) (h : Option Fault) : (s.setHalt h).agenda = s.agenda := rfl
@[simp] theorem State.setHalt_phase (s : State) (h : Option Fault) : (s.setHalt h).phase = s.phase := rfl
@[simp] theorem State.setHalt_reg (s : State) (h : Option Fault) (q : Reg) : (s.setHalt h).reg q = s.reg q := rfl

/-! ### setStrict -/

@[simp] theorem State.setStrict_v (s : State) (b : Bool) : (s.setStrict b).v = s.v := rfl
@[simp] theorem State.setStrict_i (s : State) (b : Bool) : (s.setStrict b).i = s.i := rfl
@[simp] theorem State.setStrict_pc (s : State) (b : Bool) : (s.setStrict b).pc = s.pc := rfl
@[simp] theorem State.setStrict_stack (s : State) (b : Bool) : (s.setStrict b).stack = s.stack := rfl
@[simp] theorem State.setStrict_dt (s : State) (b : Bool) : (s.setStrict b).dt = s.dt := rfl
@[simp] theorem State.setStrict_st (s : State) (b : Bool) : (s.setStrict b).st = s.st := rfl
@[simp] theorem State.setStrict_mem (s : State) (b : Bool) : (s.setStrict b).mem = s.mem := rfl
@[simp] theorem State.setStrict_fb (s : State) (b : Bool) : (s.setStrict b).fb = s.fb := rfl
@[simp] theorem State.setStrict_key (s : State) (b : Bool) : (s.setStrict b).key = s.key := rfl
@[simp] theorem State.setStrict_halt (s : State) (b : Bool) : (s.setStrict b).halt = s.halt := rfl
@[simp] theorem State.setStrict_strict (s : State) (b : Bool) : (s.setStrict b).strict = b := rfl
@[simp] theorem State.setStrict_events (s : State) (b : Bool) : (s.setStrict b).events = s.events := rfl
@[simp] theorem State.setStrict_draws (s : State) (b : Bool) : (s.setStrict b).draws = s.draws := rfl
@[simp] theorem State.setStrict_agenda (s : State) (b : Bool) : (s.setStrict b).agenda = s.agenda := rfl
@[simp] theorem State.setStrict_phase (s : State) (b : Bool) : (s.setStrict b).phase = s.phase := rfl
@[simp] theorem State.setStrict_reg (s : State) (b : Bool) (q : Reg) : (s.setStrict b).reg q = s.reg q := rfl

/-! ### emit -/

@[simp] theorem State.emit_v (s : State) (e : Event) : (s.emit e).v = s.v := rfl
@[simp] theorem State.emit_i (s : State) (e : Event) : (s.emit e).i = s.i := rfl
@[simp] theorem State.emit_pc (s : State) (e : Event) : (s.emit e).pc = s.pc := rfl
@[simp] theorem State.emit_stack (s : State) (e : Event) : (s.emit e).stack = s.stack := rfl
@[simp] theorem State.emit_dt (s : State) (e : Event) : (s.emit e).dt = s.dt := rfl
@[simp] theorem State.emit_st (s : State) (e : Event) : (s.emit e).st = s.st := rfl
@[simp] theorem State.emit_mem (s : State) (e : Event) : (s.emit e).mem = s.mem := rfl
@[simp] theorem State.emit_fb (s : State) (e : Event) : (s.emit e).fb = s.fb := rfl
@[simp] theorem State.emit_key (s : State) (e : Event) : (s.emit e).key = s.key := rfl
@[simp] theorem State.emit_halt (s : State) (e : Event) : (s.emit e).halt = s.halt := rfl
@[simp] theorem State.emit_strict (s : State) (e : Event) : (s.emit e).strict = s.strict := rfl
@[simp] theorem State.emit_events (s : State) (e : Event) : (s.emit e).events = s.events ++ [e] := rfl
@[simp] theorem State.emit_draws (s : State) (e : Event) : (s.emit e).draws = s.draws := rfl
@[simp] theorem State.emit_agenda (s : State) (e : Event) : (s.emit e).agenda = s.agenda := rfl
@[simp] theorem State.emit_phase (s : State) (e : Event) : (s.emit e).phase = s.phase := rfl
@[simp] theorem State.emit_reg (s : State) (e : Event) (q : Reg) : (s.emit e).reg q = s.reg q := rfl

/-! ### countDraw -/

@[simp] theorem State.countDraw_v (s : State) : s.countDraw.v = s.v := rfl
@[simp] theorem State.countDraw_i (s : State) : s.countDraw.i = s.i := rfl
@[simp] theorem State.countDraw_pc (s : State) : s.countDraw.pc = s.pc := rfl
@[simp] theorem State.countDraw_stack (s : State) : s.countDraw.stack = s.stack := rfl
@[simp] theorem State.countDraw_dt (s : State) : s.countDraw.dt = s.dt := rfl
@[simp] theorem State.countDraw_st (s : State) : s.countDraw.st = s.st := rfl
@[simp] theorem State.countDraw_mem (s : State) : s.countDraw.mem = s.mem := rfl
@[simp] theorem State.countDraw_fb (s : State) : s.countDraw.fb = s.fb := rfl
@[simp] theorem State.countDraw_key (s : State) : s.countDraw.key = s.key := rfl
@[simp] theorem State.countDraw_halt (s : State) : s.countDraw.halt = s.halt := rfl
@[simp] theorem State.countDraw_strict (s : State) : s.countDraw.strict = s.strict := rfl
@[simp] theorem State.countDraw_events (s : State) : s.countDraw.events = s.events := rfl
@[simp] theorem State.countDraw_draws (s : State) : s.countDraw.draws = s.draws + 1 := rfl
@[simp] theorem State.countDraw_agenda (s : State) : s.countDraw.agenda = s.agenda := rfl
@[simp] theorem State.countDraw_phase (s : State) : s.countDraw.phase = s.phase := rfl
@[simp] theorem State.countDraw_reg (s : State) (q : Reg) : s.countDraw.reg q = s.reg q := rfl

/-! ### setAgenda -/

@[simp] theorem State.setAgenda_v (s : State) (g : List Action) : (s.setAgenda g).v = s.v := rfl
@[simp] theorem State.setAgenda_i (s : State) (g : List Action) : (s.setAgenda g).i = s.i := rfl
@[simp] theorem State.setAgenda_pc (s : State) (g : List Action) : (s.setAgenda g).pc = s.pc := rfl
@[simp] theorem State.setAgenda_stack (s : State) (g : List Action) : (s.setAgenda g).stack = s.stack := rfl
@[simp] theorem State.setAgenda_dt (s : State) (g : List Action) : (s.setAgenda g).dt = s.dt := rfl
@[simp] theorem State.setAgenda_st (s : State) (g : List Action) : (s.setAgenda g).st = s.st := rfl
@[simp] theorem State.setAgenda_mem (s : State) (g : List Action) : (s.setAgenda g).mem = s.mem := rfl
@[simp] theorem State.setAgenda_fb (s : State) (g : List Action) : (s.setAgenda g).fb = s.fb := rfl
@[simp] theorem State.setAgenda_key (s : State) (g : List Action) : (s.setAgenda g).key = s.key := rfl
@[simp] theorem State.setAgenda_halt (s : State) (g : List Action) : (s.setAgenda g).halt = s.halt := rfl
@[simp] theorem State.setAgenda_strict (s : State) (g : List Action) : (s.setAgenda g).strict = s.strict := rfl
@[simp] theorem State.setAgenda_events (s : State) (g : List Action) : (s.setAgenda g).events = s.events := rfl
@[simp] theorem State.setAgenda_draws (s : State) (g : List Action) : (s.setAgenda g).draws = s.draws := rfl
@[simp] theorem State.setAgenda_agenda (s : State) (g : List Action) : (s.setAgenda g).agenda = g := rfl
@[simp] theorem State.setAgenda_phase (s : State) (g : List Action) : (s.setAgenda g).phase = s.phase := rfl
@[simp] theorem State.setAgenda_reg (s : State) (g : List Action) (q : Reg) : (s.setAgenda g).reg q = s.reg q := rfl

/-! ### setPhase -/

@[simp] theorem State.setPhase_v (s : State) (p : Phase) : (s.setPhase p).v = s.v := rfl
@[simp] theorem State.setPhase_i (s : State) (p : Phase) : (s.setPhase p).i = s.i := rfl
@[simp] theorem State.setPhase_pc (s : State) (p : Phase) : (s.setPhase p).pc = s.pc := rfl
@[simp] theorem State.setPhase_stack (s : State) (p : Phase) : (s.setPhase p).stack = s.stack := rfl
@[simp] theorem State.setPhase_dt (s : State) (p : Phase) : (s.setPhase p).dt = s.dt := rfl
@[simp] theorem State.setPhase_st (s : State) (p : Phase) : (s.setPhase p).st = s.st := rfl
@[simp] theorem State.setPhase_mem (s : State) (p : Phase) : (s.setPhase p).mem = s.mem := rfl
@[simp] theorem State.setPhase_fb (s : State) (p : Phase) : (s.setPhase p).fb = s.fb := rfl
@[simp] theorem State.setPhase_key (s : State) (p : Phase) : (s.setPhase p).key = s.key := rfl
@[simp] theorem State.setPhase_halt (s : State) (p : Phase) : (s.setPhase p).halt = s.halt := rfl
@[simp] theorem State.setPhase_strict (s : State) (p : Phase) : (s.setPhase p).strict = s.strict := rfl
@[simp] theorem State.setPhase_events (s : State) (p : Phase) : (s.setPhase p).events = s.events := rfl
@[simp] theorem State.setPhase_draws (s : State) (p : Phase) : (s.setPhase p).draws = s.draws := rfl
@[simp] theorem State.setPhase_agenda (s : State) (p : Phase) : (s.setPhase p).agenda = s.agenda := rfl
@[simp] theorem State.setPhase_phase (s : State) (p : Phase) : (s.setPhase p).phase = p := rfl
@[simp] theorem State.setPhase_reg (s : State) (p : Phase) (q : Reg) : (s.setPhase p).reg q = s.reg q := rfl

/-! ### advance -/

@[simp] theorem State.advance_v (s : State) : s.advance.v = s.v := rfl
@[simp] theorem State.advance_i (s : State) : s.advance.i = s.i := rfl
@[simp] theorem State.advance_pc (s : State) : s.advance.pc = s.pc + 2 := rfl
@[simp] theorem State.advance_stack (s : State) : s.advance.stack = s.stack := rfl
@[simp] theorem State.advance_dt (s : State) : s.advance.dt = s.dt := rfl
@[simp] theorem State.advance_st (s : State) : s.advance.st = s.st := rfl
@[simp] theorem State.advance_mem (s : State) : s.advance.mem = s.mem := rfl
@[simp] theorem State.advance_fb (s : State) : s.advance.fb = s.fb := rfl
@[simp] theorem State.advance_key (s : State) : s.advance.key = s.key := rfl
@[simp] theorem State.advance_halt (s : State) : s.advance.halt = s.halt := rfl
@[simp] theorem State.advance_strict (s : State) : s.advance.strict = s.strict := rfl
@[simp] theorem State.advance_events (s : State) : s.advance.events = s.events := rfl
@[simp] theorem State.advance_draws (s : State) : s.advance.draws = s.draws := rfl
@[simp] theorem State.advance_agenda (s : State) : s.advance.agenda = s.agenda := rfl
@[simp] theorem State.advance_phase (s : State) : s.advance.phase = s.phase := rfl
@[simp] theorem State.advance_reg (s : State) (q : Reg) : s.advance.reg q = s.reg q := rfl

/-! ### skipIf -/

@[simp] theorem State.skipIf_v (s : State) (c : Bool) : (s.skipIf c).v = s.v := rfl
@[simp] theorem State.skipIf_i (s : State) (c : Bool) : (s.skipIf c).i = s.i := rfl
@[simp] theorem State.skipIf_pc (s : State) (c : Bool) : (s.skipIf c).pc = if c then s.pc + 4 else s.pc + 2 := rfl
@[simp] theorem State.skipIf_stack (s : State) (c : Bool) : (s.skipIf c).stack = s.stack := rfl
@[simp] theorem State.skipIf_dt (s : State) (c : Bool) : (s.skipIf c).dt = s.dt := rfl
@[simp] theorem State.skipIf_st (s : State) (c : Bool) : (s.skipIf c).st = s.st := rfl
@[simp] theorem State.skipIf_mem (s : State) (c : Bool) : (s.skipIf c).mem = s.mem := rfl
@[simp] theorem State.skipIf_fb (s : State) (c : Bool) : (s.skipIf c).fb = s.fb := rfl
@[simp] theorem State.skipIf_key (s : State) (c : Bool) : (s.skipIf c).key = s.key := rfl
@[simp] theorem State.skipIf_halt (s : State) (c : Bool) : (s.skipIf c).halt = s.halt := rfl
@[simp] theorem State.skipIf_strict (s : State) (c : Bool) : (s.skipIf c).strict = s.strict := rfl
@[simp] theorem State.skipIf_events (s : State) (c : Bool) : (s.skipIf c).events = s.events := rfl
@[simp] theorem State.skipIf_draws (s : State) (c : Bool) : (s.skipIf c).draws = s.draws := rfl
@[simp] theorem State.skipIf_agenda (s : State) (c : Bool) : (s.skipIf c).agenda = s.agenda := rfl
@[simp] theorem State.skipIf_phase (s : State) (c : Bool) : (s.skipIf c).phase = s.phase := rfl
@[simp] theorem State.skipIf_reg (s : State) (c : Bool) (q : Reg) : (s.skipIf c).reg q = s.reg q := rfl

/-! ### setRegAndFlag -/

@[simp] theorem State.setRegAndFlag_i (s : State) (x : Reg) (b : Byte) (c : Bool) :
    (s.setRegAndFlag x b c).i = s.i := rfl
@[simp] theorem State.setRegAndFlag_pc (s : State) (x : Reg) (b : Byte) (c : Bool) :
    (s.setRegAndFlag x b c).pc = s.pc := rfl
@[simp] theorem State.setRegAndFlag_stack (s : State) (x : Reg) (b : Byte) (c : Bool) :
    (s.setRegAndFlag x b c).stack = s.stack := rfl
@[simp] theorem State.setRegAndFlag_dt (s : State) (x : Reg) (b : Byte) (c : Bool) :
    (s.setRegAndFlag x b c).dt = s.dt := rfl
@[simp] theorem State.setRegAndFlag_st (s : State) (x : Reg) (b : Byte) (c : Bool) :
    (s.setRegAndFlag x b c).st = s.st := rfl
@[simp] theorem State.setRegAndFlag_mem (s : State) (x : Reg) (b : Byte) (c : Bool) :
    (s.setRegAndFlag x b c).mem = s.mem := rfl
@[simp] theorem State.setRegAndFlag_fb (s : State) (x : Reg) (b : Byte) (c : Bool) :
    (s.setRegAndFlag x b c).fb = s.fb := rfl
@[simp] theorem State.setRegAndFlag_key (s : State) (x : Reg) (b : Byte) (c : Bool) :
    (s.setRegAndFlag x b c).key = s.key := rfl
@[simp] theorem State.setRegAndFlag_halt (s : State) (x : Reg) (b : Byte) (c : Bool) :
    (s.setRegAndFlag x b c).halt = s.halt := rfl
@[simp] theorem State.setRegAndFlag_strict (s : State) (x : Reg) (b : Byte) (c : Bool) :
    (s.setRegAndFlag x b c).strict = s.strict := rfl
@[simp] theorem State.setRegAndFlag_events (s : State) (x : Reg) (b : Byte) (c : Bool) :
    (s.setRegAndFlag x b c).events = s.events := rfl
@[simp] theorem State.setRegAndFlag_draws (s : State) (x : Reg) (b : Byte) (c : Bool) :
    (s.setRegAndFlag x b c).draws = s.draws := rfl
@[simp] theorem State.setRegAndFlag_agenda (s : State) (x : Reg) (b : Byte) (c : Bool) :
    (s.setRegAndFlag x b c).agenda = s.agenda := rfl
@[simp] theorem State.setRegAndFlag_phase (s : State) (x : Reg) (b : Byte) (c : Bool) :
    (s.setRegAndFlag x b c).phase = s.phase := rfl

/-! ### Registers -/

/-- A register after a register write (R20). -/
theorem State.setReg_reg (s : State) (r q : Reg) (b : Byte) :
    (s.setReg r b).reg q = if q = r then b else s.reg q := by
  by_cases h : q = r
  · subst h; simp [State.reg, State.setReg]
  · have : r.val ≠ q.val := fun e => h (Fin.ext e.symm)
    simp [State.reg, State.setReg, h, Vector.getElem_set_ne, this]

@[simp] theorem State.setReg_reg_self (s : State) (r : Reg) (b : Byte) : (s.setReg r b).reg r = b := by
  simp [State.setReg_reg]

theorem State.setReg_reg_of_ne {r q : Reg} (h : q ≠ r) (s : State) (b : Byte) :
    (s.setReg r b).reg q = s.reg q := by
  simp [State.setReg_reg, h]

/-- VF after a flagged write is the flag, also when it is the destination (R125). -/
@[simp] theorem State.setRegAndFlag_vf (s : State) (x : Reg) (b : Byte) (c : Bool) :
    (s.setRegAndFlag x b c).reg vf = flagByte c := by
  simp [State.setRegAndFlag]

/-- Every other register after a flagged write (R125). -/
theorem State.setRegAndFlag_reg {q : Reg} (h : q ≠ vf) (s : State) (x : Reg) (b : Byte) (c : Bool) :
    (s.setRegAndFlag x b c).reg q = if q = x then b else s.reg q := by
  simp [State.setRegAndFlag, State.setReg_reg, h]

/-- Two register files that read alike are equal. -/
theorem State.v_ext {s t : State} (h : ∀ r, s.reg r = t.reg r) : s.v = t.v := by
  apply Vector.ext
  intro k hk
  exact h ⟨k, hk⟩

end Sys2Proof.Machine
end

