-- ==== Sys2Proof/Laws/Display.lean ====
section
/-! SUPPORT. What the compositor does to one pixel, and the fields a drawn sprite leaves. -/

namespace Sys2Proof.Machine

/-! ## One pixel -/

/-- Flipping one pixel changes that pixel and no other (43_display.md R131). -/
theorem Framebuffer.pixel_flip (f : Framebuffer) (x : Fin 64) (y : Fin 32) (px : Fin 64) (py : Fin 32) :
    (f.flip x y).pixel px py = if px = x ∧ py = y then !f.pixel px py else f.pixel px py := by
  unfold Framebuffer.flip Framebuffer.pixel
  by_cases hy : py = y
  · subst hy
    by_cases hx : px = x
    · subst hx; simp
    · have : x.val ≠ px.val := fun e => hx (Fin.ext e.symm)
      simp [hx, Ne.symm this]
  · have : y.val ≠ py.val := fun e => hy (Fin.ext e.symm)
    simp [hy, Vector.getElem_set_ne, this]

@[simp] theorem Framebuffer.pixel_clear (px : Fin 64) (py : Fin 32) :
    Framebuffer.clear.pixel px py = false := by
  simp [Framebuffer.clear, Framebuffer.pixel]

/-- Two framebuffers with the same pixels are equal. -/
theorem Framebuffer.ext_pixel {f g : Framebuffer} (h : ∀ px py, f.pixel px py = g.pixel px py) : f = g := by
  apply Vector.ext
  intro y hy
  apply BitVec.eq_of_getLsbD_eq
  intro x hx
  exact h ⟨x, hx⟩ ⟨y, hy⟩

theorem plot_pixel (c : Canvas) (x : Fin 64) (y : Fin 32) (px : Fin 64) (py : Fin 32) :
    (plot c x y).1.pixel px py = if px = x ∧ py = y then !c.1.pixel px py else c.1.pixel px py :=
  Framebuffer.pixel_flip c.1 x y px py

theorem plot_collision (c : Canvas) (x : Fin 64) (y : Fin 32) :
    (plot c x y).2 = (c.2 || c.1.pixel x y) := rfl

/-! ## One row, and the rows of a sprite -/

/-- Pixel column `qx` is one that the leftmost `k` bits of `row`, drawn from column `x0`, turn over (43_display.md
R131). -/
def rowCovers (x0 : Nat) (row : Byte) (k : Nat) (qx : Fin 64) : Prop :=
  ∃ col, col < k ∧ row.getLsbD (7 - col) = true ∧ qx.val = (x0 + col) % 64

theorem rowCovers_succ (x0 : Nat) (row : Byte) (k : Nat) (qx : Fin 64) :
    rowCovers x0 row (k + 1) qx ↔
      rowCovers x0 row k qx ∨ (row.getLsbD (7 - k) = true ∧ qx.val = (x0 + k) % 64) := by
  constructor
  · rintro ⟨col, hc, hb, hq⟩
    rcases Nat.lt_succ_iff_lt_or_eq.1 hc with h | rfl
    · exact .inl ⟨col, h, hb, hq⟩
    · exact .inr ⟨hb, hq⟩
  · rintro (⟨col, hc, hb, hq⟩ | ⟨hb, hq⟩)
    · exact ⟨col, by omega, hb, hq⟩
    · exact ⟨k, by omega, hb, hq⟩

/-- The first `k` columns of a sprite row: the covered pixels of row `py` are turned over, each once, and the
collision is recorded (43_display.md R131). -/
theorem drawRow_prefix (x0 : Nat) (py : Fin 32) (row : Byte) (c : Canvas) (k : Nat) (hk : k ≤ 8) :
    let d := (List.range k).foldl
      (fun acc col => if row.getLsbD (7 - col) then plot acc (Fin.ofNat 64 (x0 + col)) py else acc) c
    (∀ qx qy, (qy = py ∧ rowCovers x0 row k qx → d.1.pixel qx qy = !c.1.pixel qx qy) ∧
      (¬(qy = py ∧ rowCovers x0 row k qx) → d.1.pixel qx qy = c.1.pixel qx qy)) ∧
    (d.2 = true ↔ c.2 = true ∨ ∃ qx, rowCovers x0 row k qx ∧ c.1.pixel qx py = true) := by
  induction k with
  | zero =>
    refine ⟨fun qx qy => ⟨?_, fun _ => rfl⟩, ?_⟩
    · rintro ⟨-, col, h, -⟩; omega
    · simp [rowCovers]
  | succ k ih =>
    obtain ⟨ih1, ih2⟩ := ih (by omega)
    dsimp only at ih1 ih2 ⊢
    rw [List.range_succ, List.foldl_append]
    simp only [List.foldl_cons, List.foldl_nil]
    generalize (List.range k).foldl
      (fun acc col => if row.getLsbD (7 - col) then plot acc (Fin.ofNat 64 (x0 + col)) py else acc) c = d at ih1 ih2 ⊢
    have hval : ∀ q : Fin 64, q = Fin.ofNat 64 (x0 + k) ↔ q.val = (x0 + k) % 64 := fun q => by
      rw [Fin.ext_iff]; rfl
    have hfresh : ∀ q : Fin 64, q.val = (x0 + k) % 64 → ¬rowCovers x0 row k q := by
      rintro q hq ⟨col, hc, -, hq'⟩; omega
    by_cases hb : row.getLsbD (7 - k) = true
    · rw [if_pos hb]
      refine ⟨fun qx qy => ?_, ?_⟩
      · simp only [plot_pixel, rowCovers_succ, hval]
        by_cases hq : qx.val = (x0 + k) % 64
        · have hf := hfresh qx hq
          by_cases hy : qy = py
          · have := (ih1 qx qy).2 (fun h => hf h.2)
            simp [hq, hy, hb] at this ⊢
            exact this
          · have := (ih1 qx qy).2 (fun h => hy h.1)
            simp [hy, this]
        · simpa [hq] using ih1 qx qy
      · rw [plot_collision, Bool.or_eq_true, ih2]
        have hpix : d.1.pixel (Fin.ofNat 64 (x0 + k)) py = c.1.pixel (Fin.ofNat 64 (x0 + k)) py :=
          (ih1 _ _).2 fun h => hfresh _ rfl h.2
        rw [hpix, or_assoc]
        refine or_congr_right ⟨?_, ?_⟩
        · rintro (⟨qx, h1, h2⟩ | h)
          · exact ⟨qx, (rowCovers_succ ..).2 (.inl h1), h2⟩
          · exact ⟨_, (rowCovers_succ ..).2 (.inr ⟨hb, rfl⟩), h⟩
        · rintro ⟨qx, h1, h2⟩
          rcases (rowCovers_succ ..).1 h1 with h1 | ⟨-, h1⟩
          · exact .inl ⟨qx, h1, h2⟩
          · rw [← hval] at h1; subst h1; exact .inr h2
    · rw [if_neg hb]
      have hc : ∀ qx, rowCovers x0 row (k + 1) qx ↔ rowCovers x0 row k qx := fun qx => by
        rw [rowCovers_succ]; simp [hb]
      simp only [hc]
      exact ⟨ih1, ih2⟩

/-- Everything one sprite row does (43_display.md R131). -/
theorem drawRow_spec (x0 : Nat) (py : Fin 32) (row : Byte) (c : Canvas) :
    (∀ qx qy, (qy = py ∧ rowCovers x0 row 8 qx → (drawRow x0 py row c).1.pixel qx qy = !c.1.pixel qx qy) ∧
      (¬(qy = py ∧ rowCovers x0 row 8 qx) → (drawRow x0 py row c).1.pixel qx qy = c.1.pixel qx qy)) ∧
    ((drawRow x0 py row c).2 = true ↔ c.2 = true ∨ ∃ qx, rowCovers x0 row 8 qx ∧ c.1.pixel qx py = true) :=
  drawRow_prefix x0 py row c 8 (Nat.le_refl 8)

/-- The pixel is one that the sprite `rows`, drawn from column `x0` and row `y`, turns over (43_display.md R131). -/
def rowsCover (x0 y : Nat) (rows : List Byte) (qx : Fin 64) (qy : Fin 32) : Prop :=
  ∃ r, r < rows.length ∧ qy.val = (y + r) % 32 ∧ rowCovers x0 (rows.getD r 0) 8 qx

theorem rowsCover_cons (x0 y : Nat) (row : Byte) (rows : List Byte) (qx : Fin 64) (qy : Fin 32) :
    rowsCover x0 y (row :: rows) qx qy ↔
      (qy = Fin.ofNat 32 y ∧ rowCovers x0 row 8 qx) ∨ rowsCover x0 (y + 1) rows qx qy := by
  constructor
  · rintro ⟨r, hr, hq, hc⟩
    cases r with
    | zero => exact .inl ⟨Fin.ext hq, hc⟩
    | succ r => exact .inr ⟨r, by simpa using hr, by rw [hq]; congr 1; omega, hc⟩
  · rintro (⟨rfl, hc⟩ | ⟨r, hr, hq, hc⟩)
    · exact ⟨0, by simp, rfl, hc⟩
    · exact ⟨r + 1, by simpa using hr, by rw [hq]; congr 1; omega, hc⟩

/-- Everything drawing a sprite of at most 32 rows does: the covered pixels are turned over, each once, no other
pixel changes, and the collision says that a covered pixel was lit (43_display.md R131). -/
theorem drawRows_spec (x0 y : Nat) (rows : List Byte) (c : Canvas) (hr : rows.length ≤ 32) :
    (∀ qx qy,
      (rowsCover x0 y rows qx qy → (drawRows x0 y rows c).1.pixel qx qy = !c.1.pixel qx qy) ∧
      (¬rowsCover x0 y rows qx qy → (drawRows x0 y rows c).1.pixel qx qy = c.1.pixel qx qy)) ∧
    ((drawRows x0 y rows c).2 = true ↔
      c.2 = true ∨ ∃ qx qy, rowsCover x0 y rows qx qy ∧ c.1.pixel qx qy = true) := by
  induction rows generalizing y c with
  | nil =>
    refine ⟨fun qx qy => ⟨?_, fun _ => rfl⟩, ?_⟩
    · rintro ⟨r, h, -⟩; simp at h
    · simp [drawRows, rowsCover]
  | cons row rows ih =>
    simp only [List.length_cons] at hr
    obtain ⟨d1, d2⟩ := drawRow_spec x0 (Fin.ofNat 32 y) row c
    obtain ⟨e1, e2⟩ := ih (y + 1) (drawRow x0 (Fin.ofNat 32 y) row c) (by omega)
    unfold drawRows
    have hfresh : ∀ qx qy, qy = Fin.ofNat 32 y → ¬rowsCover x0 (y + 1) rows qx qy := by
      rintro qx qy rfl ⟨r, h, hq, -⟩
      simp only [Fin.val_ofNat] at hq
      omega
    refine ⟨fun qx qy => ?_, ?_⟩
    · rw [rowsCover_cons]
      by_cases h : qy = Fin.ofNat 32 y ∧ rowCovers x0 row 8 qx
      · rw [(e1 qx qy).2 (hfresh qx qy h.1), (d1 qx qy).1 h]
        simp [h]
      · simp only [h, false_or]
        rw [← (d1 qx qy).2 h]
        exact e1 qx qy
    · rw [e2, d2, or_assoc]
      refine or_congr_right ⟨?_, ?_⟩
      · rintro (⟨qx, h1, h2⟩ | ⟨qx, qy, h1, h2⟩)
        · exact ⟨qx, _, (rowsCover_cons ..).2 (.inl ⟨rfl, h1⟩), h2⟩
        · refine ⟨qx, qy, (rowsCover_cons ..).2 (.inr h1), ?_⟩
          rw [← (d1 qx qy).2 fun h => hfresh qx qy h.1 h1]
          exact h2
      · rintro ⟨qx, qy, h1, h2⟩
        rcases (rowsCover_cons ..).1 h1 with ⟨rfl, h3⟩ | h3
        · exact .inl ⟨qx, h3, h2⟩
        · refine .inr ⟨qx, qy, h3, ?_⟩
          rw [(d1 qx qy).2 fun h => hfresh qx qy h.1 h3]
          exact h2

/-! ## A drawn sprite, field by field -/

section
variable (x y : Reg) (rows : List Byte) (s : State)

@[simp] theorem drawSprite_i : (drawSprite x y rows s).i = s.i := rfl
@[simp] theorem drawSprite_pc : (drawSprite x y rows s).pc = s.pc + 2 := rfl
@[simp] theorem drawSprite_stack : (drawSprite x y rows s).stack = s.stack := rfl
@[simp] theorem drawSprite_dt : (drawSprite x y rows s).dt = s.dt := rfl
@[simp] theorem drawSprite_st : (drawSprite x y rows s).st = s.st := rfl
@[simp] theorem drawSprite_mem : (drawSprite x y rows s).mem = s.mem := rfl
@[simp] theorem drawSprite_key : (drawSprite x y rows s).key = s.key := rfl
@[simp] theorem drawSprite_halt : (drawSprite x y rows s).halt = s.halt := rfl
@[simp] theorem drawSprite_strict : (drawSprite x y rows s).strict = s.strict := rfl
@[simp] theorem drawSprite_draws : (drawSprite x y rows s).draws = s.draws := rfl
@[simp] theorem drawSprite_agenda : (drawSprite x y rows s).agenda = s.agenda := rfl
@[simp] theorem drawSprite_phase : (drawSprite x y rows s).phase = s.phase := rfl

theorem drawSprite_fb : (drawSprite x y rows s).fb =
    (drawRows (originX (s.reg x)) (originY (s.reg y)) rows (s.fb, false)).1 := rfl

theorem drawSprite_events : (drawSprite x y rows s).events =
    s.events ++ [.present (drawSprite x y rows s).fb] := rfl

theorem drawSprite_vf : (drawSprite x y rows s).reg vf =
    flagByte (drawRows (originX (s.reg x)) (originY (s.reg y)) rows (s.fb, false)).2 := by
  simp [drawSprite]

theorem drawSprite_reg {q : Reg} (h : q ≠ vf) : (drawSprite x y rows s).reg q = s.reg q := by
  simp [drawSprite, State.setReg_reg_of_ne h]

end

end Sys2Proof.Machine
end

