-- ==== Sys2Proof/Laws/Memory.lean ====
section
/-! SUPPORT. What the memory operations do: read after write, the canonical form kept, and one spec lemma for each
block operation. -/

namespace Sys2Proof.Machine

/-! ## Read after write -/

theorem Memory.peek_cons (k : Nat) (b : Byte) (rest : Memory) (a : Nat) :
    Memory.peek ((k, b) :: rest) a = if k = a then b else Memory.peek rest a := rfl

/-- Reading below everything that is listed gives the reset contents. -/
theorem Memory.peek_of_wfFrom {m : Memory} {lo a : Nat} (h : m.wfFrom lo = true) (ha : a < lo) :
    m.peek a = background a := by
  induction m generalizing lo with
  | nil => rfl
  | cons cell rest ih =>
    obtain ⟨k, b⟩ := cell
    simp only [Memory.wfFrom, Bool.and_eq_true, decide_eq_true_eq] at h
    rw [Memory.peek_cons, if_neg (by omega)]
    exact ih h.2 (by omega)

theorem Memory.wfFrom_mono {m : Memory} {lo lo' : Nat} (h : m.wfFrom lo = true) (hl : lo' ≤ lo) :
    m.wfFrom lo' = true := by
  cases m with
  | nil => rfl
  | cons cell rest =>
    simp only [Memory.wfFrom, Bool.and_eq_true, decide_eq_true_eq] at h ⊢
    exact ⟨⟨⟨by omega, h.1.1.2⟩, h.1.2⟩, h.2⟩

theorem Memory.peek_consCell {rest : Memory} {a : Nat} (hr : rest.peek a = background a) (b : Byte) (q : Nat) :
    (Memory.consCell a b rest).peek q = if q = a then b else rest.peek q := by
  unfold Memory.consCell
  by_cases hq : q = a
  · subst hq
    split <;> simp_all [Memory.peek]
  · rw [if_neg hq]
    split
    · rfl
    · rw [Memory.peek_cons, if_neg (Ne.symm hq)]

/-- A write changes its own byte and no other (R52). -/
theorem Memory.peek_poke {m : Memory} {lo : Nat} (h : m.wfFrom lo = true) (a : Nat) (b : Byte) (q : Nat) :
    (m.poke a b).peek q = if q = a then b else m.peek q := by
  induction m generalizing lo with
  | nil => exact Memory.peek_consCell rfl b q
  | cons cell rest ih =>
    obtain ⟨k, c⟩ := cell
    have h' := h
    simp only [Memory.wfFrom, Bool.and_eq_true, decide_eq_true_eq] at h'
    unfold Memory.poke
    split
    · next hlt =>
      refine Memory.peek_consCell ?_ b q
      rw [Memory.peek_cons, if_neg (by omega)]
      exact Memory.peek_of_wfFrom h'.2 (by omega)
    · split
      · next heq =>
        subst heq
        rw [Memory.peek_consCell (Memory.peek_of_wfFrom h'.2 (by omega)), Memory.peek_cons]
        by_cases hq : q = a
        · simp [hq]
        · simp [hq, Ne.symm hq]
      · next hne =>
        rw [Memory.peek_cons, ih h'.2, Memory.peek_cons]
        by_cases hq : k = q
        · have : q ≠ a := by omega
          simp [hq, this]
        · simp [hq]

/-! ## The canonical form -/

theorem Memory.wfFrom_consCell {rest : Memory} {a lo : Nat} (hr : rest.wfFrom (a + 1) = true) (hl : lo ≤ a)
    (ha : a < Config.memSize) (b : Byte) : (Memory.consCell a b rest).wfFrom lo = true := by
  unfold Memory.consCell
  split
  · exact Memory.wfFrom_mono hr (by omega)
  · next hb => simp [Memory.wfFrom, hl, ha, hb, hr]

theorem Memory.wfFrom_poke {m : Memory} {lo : Nat} (h : m.wfFrom lo = true) {a : Nat} (hl : lo ≤ a)
    (ha : a < Config.memSize) (b : Byte) : (m.poke a b).wfFrom lo = true := by
  induction m generalizing lo with
  | nil => exact Memory.wfFrom_consCell rfl hl ha b
  | cons cell rest ih =>
    obtain ⟨k, c⟩ := cell
    have h' := h
    simp only [Memory.wfFrom, Bool.and_eq_true, decide_eq_true_eq] at h'
    unfold Memory.poke
    split
    · next hlt =>
      refine Memory.wfFrom_consCell ?_ hl ha b
      simp only [Memory.wfFrom, Bool.and_eq_true, decide_eq_true_eq]
      exact ⟨⟨⟨by omega, h'.1.1.2⟩, h'.1.2⟩, h'.2⟩
    · split
      · next heq => subst heq; exact Memory.wfFrom_consCell h'.2 hl ha b
      · next hlt hne =>
        simp only [Memory.wfFrom, Bool.and_eq_true, decide_eq_true_eq]
        exact ⟨h'.1, ih h'.2 (by omega)⟩

/-- A write to an address that exists keeps the canonical form. -/
theorem Memory.wf_poke {m : Memory} (h : m.wf = true) {a : Nat} (ha : a < Config.memSize) (b : Byte) :
    (m.poke a b).wf = true :=
  Memory.wfFrom_poke h (Nat.zero_le a) ha b

/-! ## MemRead and MemWrite -/

theorem memRead_of_lt {m : Memory} {a : Nat} (h : a < Config.memSize) : memRead m a = .ok (m.peek a) := by
  simp [memRead, h]

theorem memRead_of_ge {m : Memory} {a : Nat} (h : Config.memSize ≤ a) :
    memRead m a = .error (.outOfBounds a) := by
  simp [memRead, Nat.not_lt.2 h]

theorem memWrite_of_lt {m : Memory} {a : Nat} (h : a < Config.memSize) (b : Byte) :
    memWrite m a b = .ok (m.poke a b) := by
  simp [memWrite, h]

/-- The 16-bit read of fetch: either both bytes, or OutOfBounds on the first address above 4095 (R80). -/
theorem memReadWord_eq (m : Memory) (a : Nat) :
    memReadWord m a =
      if a + 1 < Config.memSize then .ok (wordOfBytes (m.peek a) (m.peek (a + 1)))
      else .error (.outOfBounds (max a Config.memSize)) := by
  unfold memReadWord
  by_cases h : a < Config.memSize
  · rw [memRead_of_lt h]
    by_cases h' : a + 1 < Config.memSize
    · simp [memRead_of_lt h', h']
    · simp only [memRead_of_ge (Nat.not_lt.1 h'), if_neg h']
      rw [show a + 1 = max a Config.memSize by omega]
  · have : max a Config.memSize = a := by omega
    have h' : ¬ a + 1 < Config.memSize := by omega
    simp [memRead_of_ge (Nat.not_lt.1 h), h', this]

/-! ## Blocks -/

/-- The range check of a run of addresses (R171): passed, or the smallest address above 4095. -/
theorem checkSpan_eq (a n : Nat) :
    checkSpan a n =
      if n = 0 ∨ a + n ≤ Config.memSize then .ok () else .error (.outOfBounds (max a Config.memSize)) := by
  induction n generalizing a with
  | zero => simp [checkSpan]
  | succ n ih =>
    unfold checkSpan
    by_cases h : a < Config.memSize
    · rw [if_pos h, ih]
      by_cases hn : a + (n + 1) ≤ Config.memSize
      · simp [hn, show n = 0 ∨ a + 1 + n ≤ Config.memSize by omega]
      · rw [if_neg (show ¬(n = 0 ∨ a + 1 + n ≤ Config.memSize) by omega),
          if_neg (show ¬(n + 1 = 0 ∨ a + (n + 1) ≤ Config.memSize) by omega),
          show max (a + 1) Config.memSize = max a Config.memSize by omega]
    · rw [if_neg h, if_neg (show ¬(n + 1 = 0 ∨ a + (n + 1) ≤ Config.memSize) by omega),
        show max a Config.memSize = a by omega]

/-- Reading a block (R131, R163): all its bytes, or OutOfBounds on the smallest address above 4095. -/
theorem readBlock_eq (m : Memory) (a n : Nat) :
    readBlock m a n =
      if n = 0 ∨ a + n ≤ Config.memSize then .ok ((List.range n).map fun k => m.peek (a + k))
      else .error (.outOfBounds (max a Config.memSize)) := by
  induction n generalizing a with
  | zero => simp [readBlock]
  | succ n ih =>
    unfold readBlock
    by_cases h : a < Config.memSize
    · rw [memRead_of_lt h, ih]
      by_cases hn : a + (n + 1) ≤ Config.memSize
      · simp only [show n = 0 ∨ a + 1 + n ≤ Config.memSize by omega, hn, or_true, if_true]
        simp [List.range_succ_eq_map, Function.comp_def, Nat.add_assoc, Nat.add_comm 1]
      · rw [if_neg (show ¬(n = 0 ∨ a + 1 + n ≤ Config.memSize) by omega),
          if_neg (show ¬(n + 1 = 0 ∨ a + (n + 1) ≤ Config.memSize) by omega),
          show max (a + 1) Config.memSize = max a Config.memSize by omega]
    · rw [memRead_of_ge (Nat.not_lt.1 h),
        if_neg (show ¬(n + 1 = 0 ∨ a + (n + 1) ≤ Config.memSize) by omega),
        show max a Config.memSize = a by omega]

/-- A block whose addresses all exist is written byte by byte, the canonical form is kept, and no other byte
changes (R52, R161, R162). -/
theorem writeBlock_ok {m : Memory} (h : m.wf = true) {a : Nat} {bs : List Byte}
    (ha : bs = [] ∨ a + bs.length ≤ Config.memSize) :
    ∃ m', writeBlock m a bs = .ok m' ∧ m'.wf = true ∧
      ∀ q, m'.peek q = if a ≤ q ∧ q < a + bs.length then bs.getD (q - a) 0 else m.peek q := by
  induction bs generalizing m a with
  | nil => exact ⟨m, rfl, h, fun q => by simp⟩
  | cons b bs ih =>
    have hlen : a + (bs.length + 1) ≤ Config.memSize := by simpa using ha
    have hlt : a < Config.memSize := by omega
    obtain ⟨m', h1, h2, h3⟩ := ih (Memory.wf_poke h hlt b) (a := a + 1) (Or.inr (by omega))
    refine ⟨m', by simp [writeBlock, memWrite_of_lt hlt, h1], h2, fun q => ?_⟩
    rw [h3, Memory.peek_poke h, List.length_cons]
    by_cases hqa : q = a
    · subst hqa
      rw [if_neg (by omega), if_pos rfl, if_pos (by omega)]
      simp
    · by_cases hin : a + 1 ≤ q ∧ q < a + 1 + bs.length
      · rw [if_pos hin, if_pos (by omega), show q - a = (q - (a + 1)) + 1 by omega, List.getD_cons_succ]
      · rw [if_neg hin, if_neg hqa, if_neg (by omega)]

/-- A checked store answers, whatever the memory's form: written, or OutOfBounds on the smallest address above 4095
(R171). -/
theorem storeBlock_answers (m : Memory) (a : Nat) {bs : List Byte} (hb : bs ≠ []) :
    (a + bs.length ≤ Config.memSize ∧ ∃ m', storeBlock m a bs = .ok m') ∨
    (Config.memSize < a + bs.length ∧ storeBlock m a bs = .error (.outOfBounds (max a Config.memSize))) := by
  have hn : bs.length ≠ 0 := by simpa using hb
  have hw : ∀ (bs : List Byte) (m : Memory) (a : Nat), bs = [] ∨ a + bs.length ≤ Config.memSize →
      ∃ m', writeBlock m a bs = .ok m' := by
    intro bs
    induction bs with
    | nil => exact fun m _ _ => ⟨m, rfl⟩
    | cons b bs ih =>
      intro m a ha
      have hlen : a + (bs.length + 1) ≤ Config.memSize := by simpa using ha
      obtain ⟨m', h'⟩ := ih (m.poke a b) (a + 1) (Or.inr (by omega))
      exact ⟨m', by simp [writeBlock, memWrite_of_lt (show a < Config.memSize by omega), h']⟩
  unfold storeBlock
  rw [checkSpan_eq]
  by_cases hs : a + bs.length ≤ Config.memSize
  · left
    simpa [hs] using hw bs m a (Or.inr hs)
  · right
    simp only [hn, hs, or_self, if_false, and_true]
    omega

/-- A checked store: everything it can do (R161, R162, R171). -/
theorem storeBlock_cases {m : Memory} (h : m.wf = true) (a : Nat) {bs : List Byte} (hb : bs ≠ []) :
    (a + bs.length ≤ Config.memSize ∧ ∃ m', storeBlock m a bs = .ok m' ∧ m'.wf = true ∧
      ∀ q, m'.peek q = if a ≤ q ∧ q < a + bs.length then bs.getD (q - a) 0 else m.peek q) ∨
    (Config.memSize < a + bs.length ∧ storeBlock m a bs = .error (.outOfBounds (max a Config.memSize))) := by
  have hn : bs.length ≠ 0 := by simpa using hb
  unfold storeBlock
  rw [checkSpan_eq]
  by_cases hs : a + bs.length ≤ Config.memSize
  · left
    simpa [hs] using writeBlock_ok h (Or.inr hs)
  · right
    simp only [hn, hs, or_self, if_false, and_true]
    omega

end Sys2Proof.Machine
end

