-- ==== Sys2Proof/Laws/Operands.lean ====
section
/-! SUPPORT. The operand forms and the 8-bit results and flags, as numbers. -/

namespace Sys2Proof.Machine

/-! ## Operand forms -/

@[simp] theorem zextAddr_toNat (nnn : Addr12) : (zextAddr nnn).toNat = nnn.toNat := by
  have := nnn.isLt
  simp only [zextAddr, BitVec.toNat_setWidth]
  omega

@[simp] theorem zextByte_toNat (b : Byte) : (zextByte b).toNat = b.toNat := by
  have := b.isLt
  simp only [zextByte, BitVec.toNat_setWidth]
  omega

@[simp] theorem lowNibble_val (b : Byte) : (lowNibble b).val = b.toNat % 16 := rfl

/-- The sum of JP V0 never wraps (R94). -/
theorem offsetTarget_toNat (nnn : Addr12) (b : Byte) : (offsetTarget nnn b).toNat = nnn.toNat + b.toNat := by
  have := nnn.isLt
  have := b.isLt
  simp only [offsetTarget, BitVec.toNat_add, zextAddr_toNat, zextByte_toNat]
  omega

theorem glyphAddr_toNat (d : Fin 16) : (glyphAddr d).toNat = 5 * d.val := by
  have := d.isLt
  simp only [glyphAddr, Config.fontBase, Config.fontGlyphBytes, BitVec.toNat_ofNat]
  omega

theorem bcdDigits_length (b : Byte) : (bcdDigits b).length = 3 := rfl

theorem bcdDigits_ne_nil (b : Byte) : bcdDigits b ≠ [] := by
  simp [bcdDigits]

theorem regsUpTo_length (s : State) (x : Reg) : (s.regsUpTo x).length = x.val + 1 := by
  simp [State.regsUpTo, blockCount]

theorem regsUpTo_ne_nil (s : State) (x : Reg) : s.regsUpTo x ≠ [] := by
  intro h
  have := regsUpTo_length s x
  simp [h] at this

theorem regsUpTo_getD (s : State) (x k : Reg) (h : k ≤ x) : (s.regsUpTo x).getD k.val 0 = s.reg k := by
  have hk : k.val < x.val + 1 := Nat.lt_succ_of_le h
  simp [State.regsUpTo, blockCount, hk]

/-- Which key LD Vx, K reports (R142): the smallest that is down. -/
theorem lowestKey_eq_some {s : State} {k : Fin 16} (hk : s.keyDown k = true)
    (hmin : ∀ j, j < k → s.keyDown j = false) : s.lowestKey = some k := by
  unfold State.lowestKey
  rw [List.find?_eq_some_iff_append]
  refine ⟨hk, (List.finRange 16).take k.val, (List.finRange 16).drop (k.val + 1), ?_, fun a ha => ?_⟩
  · clear hk hmin; revert k; decide
  · have hlt : a < k := by clear hk hmin; revert a k; decide
    simp [hmin a hlt]

theorem lowestKey_eq_none {s : State} (h : ∀ k, s.keyDown k = false) : s.lowestKey = none := by
  simp [State.lowestKey, h]

/-! ## Results and flags -/

theorem flagByte_toNat (b : Bool) : (flagByte b).toNat = if b then 1 else 0 := by
  cases b <;> rfl

theorem sum8_toNat (a b : Byte) : (sum8 a b).toNat = (a.toNat + b.toNat) % 256 := by
  simp [sum8]

theorem diff8_toNat (a b : Byte) : (diff8 a b).toNat = (256 + a.toNat - b.toNat) % 256 := by
  have := a.isLt
  have := b.isLt
  simp only [diff8, BitVec.toNat_ofInt]
  omega

theorem half_toNat (a : Byte) : (half a).toNat = a.toNat / 2 := by
  simp [half, Nat.shiftRight_eq_div_pow]

theorem double_toNat (a : Byte) : (double a).toNat = 2 * a.toNat % 256 := by
  simp [double, Nat.shiftLeft_eq, Nat.mul_comm]

theorem flagByte_bitOutRight (a : Byte) : (flagByte (bitOutRight a)).toNat = a.toNat % 2 := by
  revert a; decide

theorem flagByte_bitOutLeft (a : Byte) : (flagByte (bitOutLeft a)).toNat = a.toNat / 128 := by
  revert a; decide

end Sys2Proof.Machine
end

