-- ==== Sys2Proof/Laws/Ops.lean ====
section
/-! SUPPORT. What the stack, the block load into registers, fault entry, the timers' count down and the agents'
actions do. -/

namespace Sys2Proof.Machine

/-- Everything `push` does (10_state.md R24). -/
theorem push_eq (k : List Word) (w : Word) :
    push k w = if k.length < 16 then .ok (w :: k) else .error (.stackFault .overflow) := rfl

@[simp] theorem pop_nil : pop [] = .error (.stackFault .underflow) := rfl

@[simp] theorem pop_cons (w : Word) (k : List Word) : pop (w :: k) = .ok (w, k) := rfl

/-- Loading registers touches the register file only (46_memory_block.md R163). -/
theorem State.setRegsFrom_eq (bs : List Byte) (s : State) (k : Nat) :
    s.setRegsFrom k bs = { s with v := (s.setRegsFrom k bs).v } := by
  induction bs generalizing s k with
  | nil => rfl
  | cons b bs ih => rw [State.setRegsFrom, ih]; rfl

/-- A register after a block of registers is loaded (46_memory_block.md R163). -/
theorem State.setRegsFrom_reg (bs : List Byte) (s : State) (k : Nat) (h : k + bs.length ≤ 16) (q : Reg) :
    (s.setRegsFrom k bs).reg q =
      if k ≤ q.val ∧ q.val < k + bs.length then bs.getD (q.val - k) 0 else s.reg q := by
  induction bs generalizing s k with
  | nil => simp [State.setRegsFrom]
  | cons b bs ih =>
    simp only [List.length_cons] at h
    have hk : (Fin.ofNat 16 k).val = k := Nat.mod_eq_of_lt (by omega)
    rw [State.setRegsFrom, ih _ _ (by omega), State.setReg_reg, List.length_cons]
    by_cases hq : q.val = k
    · have hqk : q = Fin.ofNat 16 k := Fin.ext (hq.trans hk.symm)
      rw [if_neg (by omega), if_pos hqk, if_pos (by omega)]
      simp [hq]
    · have hqk : q ≠ Fin.ofNat 16 k := fun e => hq (by rw [e, hk])
      by_cases hin : k + 1 ≤ q.val ∧ q.val < k + 1 + bs.length
      · rw [if_pos hin, if_pos (by omega), show q.val - k = (q.val - (k + 1)) + 1 by omega, List.getD_cons_succ]
      · rw [if_neg hin, if_neg hqk, if_neg (by omega)]

/-- Fault entry sets the halt status and nothing else (60_exceptions.md R177). -/
theorem raise_eq (f : Fault) (s : State) : raise f s = .next { s with halt := some f } := rfl

/-- A timer after one tick (60_exceptions.md R180). -/
theorem countDown_toNat (b : Byte) : (countDown b).toNat = b.toNat - 1 := by
  revert b; decide

theorem tick_of_running {s : State} (h : s.halt = none) :
    tick s = (s.setDt (countDown s.dt)).setSt (countDown s.st) := by
  simp only [tick, h]

theorem tick_of_halted {s : State} {f : Fault} (h : s.halt = some f) : tick s = s := by
  simp only [tick, h]

/-! ## The agents' actions -/

/-- The first step ends the boot (70_reset_and_hazards.md R201). -/
theorem beginRun_of_running {s : State} (h : s.halt = none) : s.beginRun = s.setPhase .running := by
  simp only [State.beginRun, h]

theorem beginRun_of_halted {s : State} {f : Fault} (h : s.halt = some f) : s.beginRun = s := by
  simp only [State.beginRun, h]

/-- Beginning the run touches the phase only. -/
theorem beginRun_eq (s : State) : s.beginRun = { s with phase := s.beginRun.phase } := by
  unfold State.beginRun
  split <;> rfl

@[simp] theorem perform_step (s : State) : perform .step s = cycle s.beginRun := rfl
@[simp] theorem perform_tick (s : State) : perform .tick s = .next (tick s) := rfl
@[simp] theorem perform_setKeys (k : BitVec 16) (s : State) : perform (.setKeys k) s = .next (s.setKey k) := rfl
@[simp] theorem perform_reset (s : State) : perform .reset s = .next (resetAction s) := rfl

/-- An action that is offered acts, one that is not leaves the state alone (assumption 14). -/
theorem perform_of_offered {a : Action} {s : State} (h : offered a s = true) : perform a s = act a s := by
  simp only [perform, h, if_true]

theorem perform_of_not_offered {a : Action} {s : State} (h : offered a s = false) : perform a s = .next s := by
  simp [perform, h]

/-- Actions performed one list after another. -/
theorem performAll_append {l : List Action} {s t : State} (h : performAll l s = .next t) (m : List Action) :
    performAll (l ++ m) s = performAll m t := by
  induction l generalizing s with
  | nil => cases h; rfl
  | cons a rest ih =>
    simp only [performAll, List.cons_append] at h ⊢
    cases hp : perform a s with
    | next u => rw [hp] at h; exact ih h
    | fault f => rw [hp] at h; cases h
    | refused r => rw [hp] at h; cases h

theorem performAll_singleton (a : Action) (s : State) : performAll [a] s = perform a s := by
  simp only [performAll]
  cases perform a s <;> rfl

/-- The run of a schedule, one action further (60_exceptions.md R181). -/
theorem runTo_succ {sch : Schedule} {s t : State} {n : Nat} (h : runTo sch s n = .next t) :
    runTo sch s (n + 1) = perform (sch n) t := by
  simp only [runTo, Schedule.upTo, List.range_succ, List.map_append, List.map_cons, List.map_nil]
  exact (performAll_append h [sch n]).trans (performAll_singleton _ _)

/-- One action of the schedule of `STEPS_PER_TICK = k`, counted from a multiple of its period. -/
theorem stepsPerTick_at (k n : Nat) {r : Nat} (h : r ≤ max k 1) :
    stepsPerTick k ((max k 1 + 1) * n + r) = if r = max k 1 then .tick else .step := by
  simp only [stepsPerTick, Nat.mul_add_mod, Nat.mod_eq_of_lt (Nat.lt_succ_of_le h)]

/-- Ticks keep coming in the schedule of `STEPS_PER_TICK = k`, halted or not (60_exceptions.md R181). -/
theorem stepsPerTick_keepsComing (k : Nat) : keepsComing (stepsPerTick k) .tick := by
  intro n
  have hle : n ≤ (max k 1 + 1) * n := Nat.le_mul_of_pos_left n (Nat.succ_pos _)
  exact ⟨(max k 1 + 1) * n + max k 1, by omega, by rw [stepsPerTick_at k n (Nat.le_refl _), if_pos rfl]⟩

/-- Steps keep coming too, whatever the parameter: it is never a schedule of ticks alone (60_exceptions.md R181). -/
theorem stepsPerTick_steps_keepComing (k : Nat) : keepsComing (stepsPerTick k) .step := by
  intro n
  have hle : n ≤ (max k 1 + 1) * n := Nat.le_mul_of_pos_left n (Nat.succ_pos _)
  exact ⟨(max k 1 + 1) * n + 0, by omega, by rw [stepsPerTick_at k n (Nat.zero_le _), if_neg (by omega)]⟩

/-- The parameter 0 is taken as 1 (assumption 15). -/
theorem stepsPerTick_zero : stepsPerTick 0 = stepsPerTick 1 := rfl

theorem ticking_zero (since n : Nat) : ticking 0 since n = ticking 1 since n := by
  induction n generalizing since with
  | zero => rfl
  | succ n ih => simp [ticking, ih]

theorem progress_of_keepsComing {sch : Schedule} (h : keepsComing sch .tick) (s : State) : progress sch s :=
  fun n _ => h n

theorem stepsPerTick_progress (k : Nat) (s : State) : progress (stepsPerTick k) s :=
  progress_of_keepsComing (stepsPerTick_keepsComing k) s

end Sys2Proof.Machine
end

