-- ==== Sys2Proof/Laws/PerInstr.lean ====
section
/-! SUPPORT. Per instruction: the encoder's word is of the instruction's opcode-table row (30_encoding.md R74). -/

namespace Sys2Proof.Laws.TableRow

/-- The word of `i` under the mask of its row is the row's match. -/
def Statement (i : Instr) : Prop := encode i &&& (tableRow i).mask = (tableRow i).pat

theorem cls : Statement .cls := by
  unfold Statement; decide
theorem ret : Statement .ret := by
  unfold Statement; decide
theorem sys (nnn : Addr12) : Statement (.sys nnn) := packNNN_mask _ nnn
theorem jp (nnn : Addr12) : Statement (.jp nnn) := packNNN_mask _ nnn
theorem call (nnn : Addr12) : Statement (.call nnn) := packNNN_mask _ nnn
theorem seByte (x : Reg) (kk : Byte) : Statement (.seByte x kk) := packXKK_mask _ x kk
theorem sneByte (x : Reg) (kk : Byte) : Statement (.sneByte x kk) := packXKK_mask _ x kk
theorem seReg (x y : Reg) : Statement (.seReg x y) := packXYN_maskLow _ x y _
theorem ldByte (x : Reg) (kk : Byte) : Statement (.ldByte x kk) := packXKK_mask _ x kk
theorem addByte (x : Reg) (kk : Byte) : Statement (.addByte x kk) := packXKK_mask _ x kk
theorem ldReg (x y : Reg) : Statement (.ldReg x y) := packXYN_maskLow _ x y _
theorem orReg (x y : Reg) : Statement (.orReg x y) := packXYN_maskLow _ x y _
theorem andReg (x y : Reg) : Statement (.andReg x y) := packXYN_maskLow _ x y _
theorem xorReg (x y : Reg) : Statement (.xorReg x y) := packXYN_maskLow _ x y _
theorem addReg (x y : Reg) : Statement (.addReg x y) := packXYN_maskLow _ x y _
theorem sub (x y : Reg) : Statement (.sub x y) := packXYN_maskLow _ x y _
theorem shr (x y : Reg) : Statement (.shr x y) := packXYN_maskLow _ x y _
theorem subn (x y : Reg) : Statement (.subn x y) := packXYN_maskLow _ x y _
theorem shl (x y : Reg) : Statement (.shl x y) := packXYN_maskLow _ x y _
theorem sneReg (x y : Reg) : Statement (.sneReg x y) := packXYN_maskLow _ x y _
theorem ldI (nnn : Addr12) : Statement (.ldI nnn) := packNNN_mask _ nnn
theorem jpV0 (nnn : Addr12) : Statement (.jpV0 nnn) := packNNN_mask _ nnn
theorem rnd (x : Reg) (kk : Byte) : Statement (.rnd x kk) := packXKK_mask _ x kk
theorem drw (x y : Reg) (n : Height) : Statement (.drw x y n) := packXYN_mask _ x y n
theorem skp (x : Reg) : Statement (.skp x) := packXKK_maskLow _ x _
theorem sknp (x : Reg) : Statement (.sknp x) := packXKK_maskLow _ x _
theorem ldVxDT (x : Reg) : Statement (.ldVxDT x) := packXKK_maskLow _ x _
theorem ldVxK (x : Reg) : Statement (.ldVxK x) := packXKK_maskLow _ x _
theorem ldDTVx (x : Reg) : Statement (.ldDTVx x) := packXKK_maskLow _ x _
theorem ldSTVx (x : Reg) : Statement (.ldSTVx x) := packXKK_maskLow _ x _
theorem addI (x : Reg) : Statement (.addI x) := packXKK_maskLow _ x _
theorem ldF (x : Reg) : Statement (.ldF x) := packXKK_maskLow _ x _
theorem ldB (x : Reg) : Statement (.ldB x) := packXKK_maskLow _ x _
theorem storeRegs (x : Reg) : Statement (.storeRegs x) := packXKK_maskLow _ x _
theorem loadRegs (x : Reg) : Statement (.loadRegs x) := packXKK_maskLow _ x _

/-- Every instruction's word is of its row. -/
theorem all (i : Instr) : Statement i := by
  cases i with
  | cls => exact TableRow.cls
  | ret => exact TableRow.ret
  | sys nnn => exact TableRow.sys nnn
  | jp nnn => exact TableRow.jp nnn
  | call nnn => exact TableRow.call nnn
  | seByte x kk => exact TableRow.seByte x kk
  | sneByte x kk => exact TableRow.sneByte x kk
  | seReg x y => exact TableRow.seReg x y
  | ldByte x kk => exact TableRow.ldByte x kk
  | addByte x kk => exact TableRow.addByte x kk
  | ldReg x y => exact TableRow.ldReg x y
  | orReg x y => exact TableRow.orReg x y
  | andReg x y => exact TableRow.andReg x y
  | xorReg x y => exact TableRow.xorReg x y
  | addReg x y => exact TableRow.addReg x y
  | sub x y => exact TableRow.sub x y
  | shr x y => exact TableRow.shr x y
  | subn x y => exact TableRow.subn x y
  | shl x y => exact TableRow.shl x y
  | sneReg x y => exact TableRow.sneReg x y
  | ldI nnn => exact TableRow.ldI nnn
  | jpV0 nnn => exact TableRow.jpV0 nnn
  | rnd x kk => exact TableRow.rnd x kk
  | drw x y n => exact TableRow.drw x y n
  | skp x => exact TableRow.skp x
  | sknp x => exact TableRow.sknp x
  | ldVxDT x => exact TableRow.ldVxDT x
  | ldVxK x => exact TableRow.ldVxK x
  | ldDTVx x => exact TableRow.ldDTVx x
  | ldSTVx x => exact TableRow.ldSTVx x
  | addI x => exact TableRow.addI x
  | ldF x => exact TableRow.ldF x
  | ldB x => exact TableRow.ldB x
  | storeRegs x => exact TableRow.storeRegs x
  | loadRegs x => exact TableRow.loadRegs x

end Sys2Proof.Laws.TableRow
end

