-- ==== Sys2Proof/Laws/Step.lean ====
section
/-! SUPPORT. What fetch, the engine's cycle and the Unknown result of the decoder are. -/

namespace Sys2Proof.Machine

/-- Everything fetch does (30_encoding.md R80): both bytes, or OutOfBounds on the first address above 4095. -/
theorem fetch_eq (s : State) :
    fetch s =
      if s.pc.toNat + 1 < Config.memSize then
        .ok (wordOfBytes (s.mem.peek s.pc.toNat) (s.mem.peek (s.pc.toNat + 1)))
      else .error (.outOfBounds (max s.pc.toNat Config.memSize)) :=
  memReadWord_eq s.mem s.pc.toNat

/-- A halted engine does nothing (60_exceptions.md R178). -/
theorem cycle_of_halted {s : State} {f : Fault} (h : s.halt = some f) : cycle s = .next s := by
  simp only [cycle, h]

/-- A running engine fetches, decodes and executes (30_encoding.md R80). -/
theorem cycle_of_running {s : State} (h : s.halt = none) :
    cycle s =
      match fetch s with
      | .error f => raise f s
      | .ok w => execDecoded (decode w) s := by
  cases hf : fetch s <;> simp only [cycle, h, hf]

/-- A running engine whose bytes at PC decode to `i` executes `i` (30_encoding.md R80). -/
theorem cycle_of_instr {s : State} {i : Instr} (h : s.halt = none) (hp : s.pc.toNat + 1 < Config.memSize)
    (hi : decode (wordOfBytes (s.mem.peek s.pc.toNat) (s.mem.peek (s.pc.toNat + 1))) = .instr i) :
    cycle s = exec i s := by
  simp only [cycle_of_running h, fetch_eq, if_pos hp, hi, execDecoded]

/-- A step with nothing on the agenda is the engine's (assumption 2). -/
theorem step_of_agenda_nil {s : State} (h : s.agenda = []) : step s = perform .step s := by
  simp only [step, h]

/-- A step with an action on the agenda performs it (assumption 2). -/
theorem step_of_agenda_cons {s : State} {a : Action} {rest : List Action} (h : s.agenda = a :: rest) :
    step s = perform a (s.setAgenda rest) := by
  simp only [step, h]

/-- An Unknown result carries the raw bits (30_encoding.md R75). -/
theorem decode_unknown_bits {w u : Word} (h : decode w = .unknown u) : u = w := by
  revert h
  unfold decode decodeFamily0 decodeFamily8 decodeFamilyE decodeFamilyF decodeLowNibbleZero
  intro h
  (repeat' split at h) <;> cases h <;> rfl

/-- The memory of the reset state is in its canonical form. -/
theorem reset_mem_wf : State.reset.mem.wf = true := rfl

end Sys2Proof.Machine
end

