-- ==== Sys2Proof/Machine/Assembly.lean ====
section
/-! DEFINITION. The assembler syntax of an instruction, and the bytes of a program written as instructions and data
directives (30_encoding.md R78, R79). It is spelling: no rule of the machine reads it. -/

namespace Sys2Proof.Machine

/-- A hexadecimal digit. -/
def hexDigit (d : Nat) : String :=
  match d with
  | 0 => "0" | 1 => "1" | 2 => "2" | 3 => "3" | 4 => "4" | 5 => "5" | 6 => "6" | 7 => "7"
  | 8 => "8" | 9 => "9" | 10 => "A" | 11 => "B" | 12 => "C" | 13 => "D" | 14 => "E" | _ => "F"

/-- A register: V0 to V9, VA to VF (R20, R78). -/
def regText (x : Reg) : String := "V" ++ hexDigit x.val

/-- A `nibble` operand, written in hexadecimal (R7, R78). -/
def nibbleText (n : Height) : String := "0x" ++ hexDigit n.val

/-- A `byte` operand, written in hexadecimal (R7, R78). -/
def byteText (b : Byte) : String := "0x" ++ hexDigit (b.toNat / 16) ++ hexDigit (b.toNat % 16)

/-- An `addr` operand, written in hexadecimal (R7, R78). -/
def addrText (a : Addr12) : String :=
  "0x" ++ hexDigit (a.toNat / 256) ++ hexDigit (a.toNat / 16 % 16) ++ hexDigit (a.toNat % 16)

/-- A mnemonic with two operands, the destination first (R78). -/
def twoOperands (m a b : String) : String := m ++ " " ++ a ++ ", " ++ b

/-- SHR and SHL: the second operand is optional, and an omitted one is 0 in the field y (R78). -/
def shiftText (m : String) (x y : Reg) : String :=
  if y = 0 then m ++ " " ++ regText x else twoOperands m (regText x) (regText y)

/-- The line an assembler reads for an instruction (R74, R78; assumption 19). -/
def assemblyText : Instr → String
  | .cls => "CLS"
  | .ret => "RET"
  | .sys nnn => "SYS " ++ addrText nnn
  | .jp nnn => "JP " ++ addrText nnn
  | .call nnn => "CALL " ++ addrText nnn
  | .seByte x kk => twoOperands "SE" (regText x) (byteText kk)
  | .sneByte x kk => twoOperands "SNE" (regText x) (byteText kk)
  | .seReg x y => twoOperands "SE" (regText x) (regText y)
  | .ldByte x kk => twoOperands "LD" (regText x) (byteText kk)
  | .addByte x kk => twoOperands "ADD" (regText x) (byteText kk)
  | .ldReg x y => twoOperands "LD" (regText x) (regText y)
  | .orReg x y => twoOperands "OR" (regText x) (regText y)
  | .andReg x y => twoOperands "AND" (regText x) (regText y)
  | .xorReg x y => twoOperands "XOR" (regText x) (regText y)
  | .addReg x y => twoOperands "ADD" (regText x) (regText y)
  | .sub x y => twoOperands "SUB" (regText x) (regText y)
  | .shr x y => shiftText "SHR" x y
  | .subn x y => twoOperands "SUBN" (regText x) (regText y)
  | .shl x y => shiftText "SHL" x y
  | .sneReg x y => twoOperands "SNE" (regText x) (regText y)
  | .ldI nnn => twoOperands "LD" "I" (addrText nnn)
  | .jpV0 nnn => twoOperands "JP" "V0" (addrText nnn)
  | .rnd x kk => twoOperands "RND" (regText x) (byteText kk)
  | .drw x y n => twoOperands "DRW" (regText x) (regText y) ++ ", " ++ nibbleText n
  | .skp x => "SKP " ++ regText x
  | .sknp x => "SKNP " ++ regText x
  | .ldVxDT x => twoOperands "LD" (regText x) "DT"
  | .ldVxK x => twoOperands "LD" (regText x) "K"
  | .ldDTVx x => twoOperands "LD" "DT" (regText x)
  | .ldSTVx x => twoOperands "LD" "ST" (regText x)
  | .addI x => twoOperands "ADD" "I" (regText x)
  | .ldF x => twoOperands "LD" "F" (regText x)
  | .ldB x => twoOperands "LD" "B" (regText x)
  | .storeRegs x => twoOperands "LD" "[I]" (regText x)
  | .loadRegs x => twoOperands "LD" (regText x) "[I]"

/-- One line of a program: an instruction, which is always one opcode, or a data directive (R79). -/
inductive ProgramLine where
  /-- An instruction. -/
  | instr (i : Instr)
  /-- `DB b`: one literal byte. -/
  | db (b : Byte)
  /-- `DW w`: one literal 16-bit word, stored big-endian. -/
  | dw (w : Word)
  deriving DecidableEq, Repr

/-- The bytes a line stands for, the lower address first (R54, R79). -/
def lineBytes : ProgramLine → List Byte
  | .instr i => encodeBytes i
  | .db b => [b]
  | .dw w => [highByte w, lowByte w]

/-- The bytes of a program, ready for `load`. -/
def assemble (lines : List ProgramLine) : List Byte := lines.flatMap lineBytes

end Sys2Proof.Machine
end

