-- ==== Sys2Proof/Tests/Slice0.lean ====
section
/-! SUPPORT. The model's own tests: the WellFormed smoke, decoding and encoding of words written out from the spec's
patterns (30_encoding.md R74), at most two single steps per instruction with the results of 95_test_vectors.md (the
vector's id is in each docstring), and the witnesses that the hypotheses of the obligations can be met. -/

namespace Sys2Proof.Tests

open Sys2Proof.Machine

/-- The next state of an outcome, if it is one. -/
def nextOf (r : Result) : Option State :=
  match r with
  | .next t => some t
  | .fault _ => none
  | .refused _ => none

/-- The reset state with the word `w` at PC (the convention of 95_test_vectors.md). -/
def placed (w : Nat) : State := State.reset.withFetchWord 16 w

/-- `s` with the byte `b` at `a`. -/
def withByte (s : State) (a : Nat) (b : Byte) : State := s.setMem (s.mem.poke a b)

/-- The value of `f` in the state after one step. -/
def afterStep {α : Type} (s : State) (f : State → α) : Option α := (nextOf (step s)).map f

/-- The value of `f` in the state after performing `acts`. -/
def afterAll {α : Type} (acts : List Action) (s : State) (f : State → α) : Option α :=
  (nextOf (performAll acts s)).map f

/-! ## WellFormed: the one check, and terms that fail it (R74 row 1) -/

theorem test_wf_refuses_sys_0E0 : (Instr.sys 0x0E0).wf = false := by decide
theorem test_wf_refuses_sys_0EE : (Instr.sys 0x0EE).wf = false := by decide
theorem test_wf_accepts_neighbours :
    (Instr.sys 0x0E1).wf = true ∧ (Instr.sys 0x000).wf = true ∧ (Instr.sys 0xFFF).wf = true := by decide

/-! ## Decoding: words written out from the patterns of R74; D<n> are the rows of 95_test_vectors.md 2.1 -/

/-- `0nnn`, `00E0`, `00EE` (D1 to D6, and R76). -/
theorem test_decode_family0 :
    decode 0x00E0 = .instr .cls ∧ decode 0x00EE = .instr .ret ∧ decode 0x0000 = .instr (.sys 0x000) ∧
    decode 0x00E1 = .instr (.sys 0x0E1) ∧ decode 0x0FFF = .instr (.sys 0xFFF) ∧
    decode 0x00FF = .instr (.sys 0x0FF) ∧ decode 0x00FD = .instr (.sys 0x0FD) := by decide
/-- `1nnn`, `2nnn`, `Annn`, `Bnnn`; JP 0xA5C is 0001 1010 0101 1100. -/
theorem test_decode_addresses :
    decode 0b0001101001011100 = .instr (.jp 0xA5C) ∧ decode 0b0010111111111111 = .instr (.call 0xFFF) ∧
    decode 0b1010000100100011 = .instr (.ldI 0x123) ∧ decode 0b1011001100000000 = .instr (.jpV0 0x300) := by decide
/-- `3xkk`, `4xkk`, `6xkk`, `7xkk`, `Cxkk`; SE VA, 0x42 is 0011 1010 0100 0010. -/
theorem test_decode_bytes :
    decode 0b0011101001000010 = .instr (.seByte 10 0x42) ∧ decode 0b0100101001000010 = .instr (.sneByte 10 0x42) ∧
    decode 0b0110111100000001 = .instr (.ldByte 15 0x01) ∧ decode 0b0111000111111110 = .instr (.addByte 1 0xFE) ∧
    decode 0b1100101000001111 = .instr (.rnd 10 0x0F) := by decide
/-- `5xy0`, `9xy0`, with D10 and D12. -/
theorem test_decode_families5and9 :
    decode 0b0101000100100000 = .instr (.seReg 1 2) ∧ decode 0b1001000100100000 = .instr (.sneReg 1 2) ∧
    decode 0x5121 = .unknown 0x5121 ∧ decode 0x912F = .unknown 0x912F := by decide
/-- `8xy0` to `8xy7` and `8xyE`, with x = 1 and y = 2: 1000 0001 0010 and the low nibble; D14, D16. -/
theorem test_decode_family8 :
    decode 0b1000000100100000 = .instr (.ldReg 1 2) ∧ decode 0b1000000100100001 = .instr (.orReg 1 2) ∧
    decode 0b1000000100100010 = .instr (.andReg 1 2) ∧ decode 0b1000000100100011 = .instr (.xorReg 1 2) ∧
    decode 0b1000000100100100 = .instr (.addReg 1 2) ∧ decode 0b1000000100100101 = .instr (.sub 1 2) ∧
    decode 0b1000000100100110 = .instr (.shr 1 2) ∧ decode 0b1000000100100111 = .instr (.subn 1 2) ∧
    decode 0b1000000100101110 = .instr (.shl 1 2) ∧ decode 0x8128 = .unknown 0x8128 ∧
    decode 0x812F = .unknown 0x812F := by decide
/-- `Dxyn`: DRW V1, V2, 3 is 1101 0001 0010 0011; D24. -/
theorem test_decode_drw :
    decode 0b1101000100100011 = .instr (.drw 1 2 3) ∧ decode 0xD000 = .instr (.drw 0 0 0) := by decide
/-- `Ex9E`, `ExA1` (D17 to D19). -/
theorem test_decode_familyE :
    decode 0b1110000110011110 = .instr (.skp 1) ∧ decode 0b1110000110100001 = .instr (.sknp 1) ∧
    decode 0xE19F = .unknown 0xE19F := by decide
/-- The nine `Fx` rows with x = A; D21, D23, and the SUPER-CHIP rows of R76. -/
theorem test_decode_familyF :
    decode 0xFA07 = .instr (.ldVxDT 10) ∧ decode 0xFA0A = .instr (.ldVxK 10) ∧ decode 0xFA15 = .instr (.ldDTVx 10) ∧
    decode 0xFA18 = .instr (.ldSTVx 10) ∧ decode 0xFA1E = .instr (.addI 10) ∧ decode 0xFA29 = .instr (.ldF 10) ∧
    decode 0xFA33 = .instr (.ldB 10) ∧ decode 0xFA55 = .instr (.storeRegs 10) ∧
    decode 0xFA65 = .instr (.loadRegs 10) ∧ decode 0xF100 = .unknown 0xF100 ∧ decode 0xF175 = .unknown 0xF175 ∧
    decode 0xF130 = .unknown 0xF130 ∧ decode 0xF185 = .unknown 0xF185 := by decide
/-- The bytes of an instruction, and the table's numbering of them (R54, R70). -/
theorem test_bytes_big_endian :
    encodeBytes (.jp 0xABC) = [0x1A, 0xBC] ∧ decodeBytes 0x1A 0xBC = .instr (.jp 0xABC) ∧
    decodeTableWord 16 0x8AB4 = some (.addReg 10 11) ∧ decodeTableWord 16 0x5121 = none := by decide
/-- Encodings written out from R72 and R74. -/
theorem test_encode_each_format :
    encode .cls = 0x00E0 ∧ encode (.sys 0x0FF) = 0x00FF ∧ encode (.jpV0 0x300) = 0xB300 ∧
    encode (.rnd 10 0x0F) = 0xCA0F ∧ encode (.shl 1 2) = 0x812E ∧ encode (.sneReg 3 3) = 0x9330 ∧
    encode (.drw 10 11 5) = 0xDAB5 ∧ encode (.sknp 10) = 0xEAA1 ∧ encode (.storeRegs 15) = 0xFF55 := by decide

/-- The spelling of R78, with the operands of the opcode map, and an omitted second operand of SHR. -/
theorem test_assembly_text :
    assemblyText (.drw 10 11 5) = "DRW VA, VB, 0x5" ∧ assemblyText (.jpV0 0x300) = "JP V0, 0x300" ∧
    assemblyText (.shr 1 0) = "SHR V1" ∧ assemblyText (.shr 1 2) = "SHR V1, V2" ∧
    assemblyText (.storeRegs 15) = "LD [I], VF" ∧ assemblyText (.seByte 3 0x0F) = "SE V3, 0x0F" := by decide
/-- The bytes of a program with data directives (R79). -/
theorem test_assemble :
    assemble [.instr (.ldByte 10 0x07), .db 0x80, .dw 0x1200] = [0x6A, 0x07, 0x80, 0x12, 0x00] := by decide

/-! ## One step, from the vectors of 95_test_vectors.md -/

/-- T2: SYS 0x123 is a no-op. -/
theorem test_sys :
    afterStep (placed 0x0123) (fun t => (t.pc, t.stack, t.events)) = some (0x0202, [], []) := by decide
/-- T153: 00FD is SYS in strict mode too. -/
theorem test_sys_strict :
    afterStep ((placed 0x00FD).setStrict true) (fun t => (t.pc, t.halt)) = some (0x0202, none) := by decide
/-- T5: RET pops the newest. -/
theorem test_ret :
    afterStep ((placed 0x00EE).setStack [0x0ABC, 0x0202]) (fun t => (t.pc, t.stack)) = some (0x0ABC, [0x0202]) := by decide
/-- T6. -/
theorem test_ret_underflow :
    afterStep (placed 0x00EE) (fun t => (t.pc, t.halt)) = some (0x0200, some (.stackFault .underflow)) := by decide
/-- T8. -/
theorem test_jp :
    afterStep (placed 0x1ABC) (fun t => t.pc) = some 0x0ABC := by decide
/-- T9: JP to self. -/
theorem test_jp_self :
    afterStep (placed 0x1200) (fun t => t.pc) = some 0x0200 := by decide
/-- T12: CALL, 16th entry. -/
theorem test_call :
    afterStep ((placed 0x2ABC).setStack (List.replicate 15 0)) (fun t => (t.pc, t.stack.head?, t.stack.length)) = some (0x0ABC, some 0x0202, 16) := by decide
/-- T13. -/
theorem test_call_overflow :
    afterStep ((placed 0x2ABC).setStack (List.replicate 16 0)) (fun t => (t.pc, t.stack.length, t.halt)) = some (0x0200, 16, some (.stackFault .overflow)) := by decide
/-- T16: the largest PC reachable. -/
theorem test_jpV0 :
    afterStep ((placed 0xBFFF).setReg 0 0xFF) (fun t => t.pc) = some 0x10FE := by decide
/-- T17. -/
theorem test_jpV0_ignores_x :
    afterStep ((placed 0xB123).setReg 1 0x55) (fun t => t.pc) = some 0x0123 := by decide
/-- T18. -/
theorem test_seByte :
    afterStep ((placed 0x3A42).setReg 10 0x42) (fun t => t.pc) = some 0x0204 := by decide
/-- T19. -/
theorem test_seByte_not :
    afterStep ((placed 0x3A42).setReg 10 0x43) (fun t => t.pc) = some 0x0202 := by decide
/-- T22. -/
theorem test_sneByte :
    afterStep ((placed 0x4A42).setReg 10 0x43) (fun t => t.pc) = some 0x0204 := by decide
/-- T21. -/
theorem test_sneByte_not :
    afterStep ((placed 0x4A42).setReg 10 0x42) (fun t => t.pc) = some 0x0202 := by decide
/-- T23. -/
theorem test_seReg :
    afterStep (((placed 0x5AB0).setReg 10 7).setReg 11 7) (fun t => t.pc) = some 0x0204 := by decide
/-- T24. -/
theorem test_seReg_not :
    afterStep (((placed 0x5AB0).setReg 10 7).setReg 11 8) (fun t => t.pc) = some 0x0202 := by decide
/-- T27. -/
theorem test_sneReg :
    afterStep (((placed 0x9AB0).setReg 10 7).setReg 11 8) (fun t => t.pc) = some 0x0204 := by decide
/-- T28. -/
theorem test_sneReg_not :
    afterStep ((placed 0x9330).setReg 3 0x99) (fun t => t.pc) = some 0x0202 := by decide
/-- T30. -/
theorem test_ldByte :
    afterStep (placed 0x6A42) (fun t => (t.reg 10, t.reg 15, t.pc)) = some (0x42, 0, 0x0202) := by decide
/-- T139: odd PC is legal. -/
theorem test_ldByte_odd_pc :
    afterStep (withByte (withByte (placed 0) 0x201 0x6A) 0x202 0x11 |>.setPc 0x0201) (fun t => (t.reg 10, t.pc)) = some (0x11, 0x0203) := by decide
/-- T32: wraps, VF untouched. -/
theorem test_addByte :
    afterStep (((placed 0x7A01).setReg 10 0xFF).setReg 15 0x77) (fun t => (t.reg 10, t.reg 15, t.pc)) = some (0, 0x77, 0x0202) := by decide
/-- T34: VF as a plain register. -/
theorem test_addByte_vf :
    afterStep ((placed 0x7F01).setReg 15 0xFF) (fun t => (t.reg 15, t.pc)) = some (0, 0x0202) := by decide
/-- T35. -/
theorem test_ldReg :
    afterStep (((placed 0x8AB0).setReg 10 1).setReg 11 2) (fun t => (t.reg 10, t.reg 11)) = some (2, 2) := by decide
/-- T36. -/
theorem test_orReg :
    afterStep ((((placed 0x8AB1).setReg 10 0xF0).setReg 11 0x0F).setReg 15 0x55) (fun t => (t.reg 10, t.reg 15, t.pc)) = some (0xFF, 0x55, 0x0202) := by decide
/-- T37. -/
theorem test_andReg :
    afterStep ((((placed 0x8AB2).setReg 10 0xFC).setReg 11 0x3F).setReg 15 0x55) (fun t => (t.reg 10, t.reg 15, t.pc)) = some (0x3C, 0x55, 0x0202) := by decide
/-- T38. -/
theorem test_xorReg :
    afterStep ((((placed 0x8AB3).setReg 10 0xFF).setReg 11 0x0F).setReg 15 0x55) (fun t => (t.reg 10, t.reg 15, t.pc)) = some (0xF0, 0x55, 0x0202) := by decide
/-- T39. -/
theorem test_xorReg_self :
    afterStep ((placed 0x8AA3).setReg 10 0x5A) (fun t => (t.reg 10, t.reg 15, t.pc)) = some (0, 0, 0x0202) := by decide
/-- T40: the source's example S2. -/
theorem test_addReg :
    afterStep (((placed 0x8AB4).setReg 10 0xFF).setReg 11 0x01) (fun t => (t.reg 10, t.reg 15, t.pc)) = some (0x00, 1, 0x0202) := by decide
/-- T47: VF read as an operand first. -/
theorem test_addReg_vf :
    afterStep (((placed 0x8AF4).setReg 10 0xFE).setReg 15 0x03) (fun t => (t.reg 10, t.reg 15, t.pc)) = some (0x01, 1, 0x0202) := by decide
/-- T48: the source's example S3. -/
theorem test_sub :
    afterStep ((((placed 0x8AB5).setReg 10 0x05).setReg 11 0x0A).setReg 15 1) (fun t => (t.reg 10, t.reg 15, t.pc)) = some (0xFB, 0, 0x0202) := by decide
/-- T53: the flag is written last. -/
theorem test_sub_vf :
    afterStep (((placed 0x8FA5).setReg 15 0x05).setReg 10 0x03) (fun t => (t.reg 15, t.pc)) = some (1, 0x0202) := by decide
/-- T57. -/
theorem test_subn :
    afterStep (((placed 0x8AB7).setReg 10 0x0A).setReg 11 0x05) (fun t => (t.reg 10, t.reg 15, t.pc)) = some (0xFB, 0, 0x0202) := by decide
/-- T58: equal is no borrow. -/
theorem test_subn_equal :
    afterStep (((placed 0x8AB7).setReg 10 0x07).setReg 11 0x07) (fun t => (t.reg 10, t.reg 15, t.pc)) = some (0, 1, 0x0202) := by decide
/-- T60: Vy ignored. -/
theorem test_shr :
    afterStep (((placed 0x8AB6).setReg 10 0x05).setReg 11 0xFF) (fun t => (t.reg 10, t.reg 15, t.pc)) = some (0x02, 1, 0x0202) := by decide
/-- T65. -/
theorem test_shr_vf :
    afterStep ((placed 0x8FB6).setReg 15 0x02) (fun t => t.reg 15) = some 0 := by decide
/-- T66: Vy ignored. -/
theorem test_shl :
    afterStep (((placed 0x8ABE).setReg 10 0x81).setReg 11 0xFF) (fun t => (t.reg 10, t.reg 15, t.pc)) = some (0x02, 1, 0x0202) := by decide
/-- T69. -/
theorem test_shl_vf :
    afterStep ((placed 0x8FBE).setReg 15 0x80) (fun t => t.reg 15) = some 1 := by decide
/-- T72. -/
theorem test_ldI :
    afterStep (placed 0xAFFF) (fun t => (t.i, t.pc)) = some (0x0FFF, 0x0202) := by decide
/-- T74: past 12 bits, VF untouched. -/
theorem test_addI :
    afterStep ((((placed 0xFA1E).setI 0x0FFF).setReg 10 1).setReg 15 0x55) (fun t => (t.i, t.reg 15)) = some (0x1000, 0x55) := by decide
/-- T76. -/
theorem test_addI_wraps :
    afterStep (((placed 0xFA1E).setI 0xFF80).setReg 10 0xFF) (fun t => t.i) = some 0x007F := by decide
/-- T79: RND with mask 0 gives 0 whatever byte is drawn, and one byte is drawn. -/
theorem test_rnd_mask_zero :
    ∃ t, exec (.rnd 10 0x00) (placed 0xCA00) = .next t ∧ t.reg 10 = 0 ∧ t.draws = 1 ∧ t.pc = 0x0202 :=
  ⟨_, rfl, by simp, rfl, rfl⟩
/-- T78: RND with mask 0x0F leaves the high bits 0 whatever byte is drawn. -/
theorem test_rnd_masked : ∃ t, exec (.rnd 10 0x0F) (placed 0xCA0F) = .next t ∧ t.reg 10 &&& 0xF0 = 0 :=
  ⟨_, rfl, by rw [State.advance_reg, State.countDraw_reg, State.setReg_reg_self, BitVec.and_assoc]; simp⟩
/-- T81: two lit pixels go off, one present. -/
theorem test_cls :
    afterStep ((placed 0x00E0).setFb ((Framebuffer.clear.flip 0 0).flip 63 31)) (fun t => (t.fb, t.events, t.pc)) = some (Framebuffer.clear, [.present Framebuffer.clear], 0x0202) := by decide
/-- T87: (126, 63) is (62, 31), and the row wraps. -/
theorem test_drw_wraps :
    afterStep (withByte ((((placed 0xDAB1).setReg 10 0x7E).setReg 11 0x3F).setI 0x300) 0x300 0xFF) (fun t => (t.fb[31], t.fb[0], t.reg 15, t.pc)) = some (0xC00000000000003F, 0, 0, 0x0202) := by decide
/-- T93: row 15 at 0x1000, nothing drawn. -/
theorem test_drw_fault :
    afterStep (withByte (((placed 0xDABF).setI 0x0FF2).setReg 15 1) 0xFF2 0xFF) (fun t => (t.fb, t.reg 15, t.events, t.halt)) = some (Framebuffer.clear, 1, [], some (.outOfBounds 0x1000)) := by decide
/-- T100: the index is the low 4 bits. -/
theorem test_skp :
    afterStep (((placed 0xEA9E).setReg 10 0x15).setKey 0x0020) (fun t => t.pc) = some 0x0204 := by decide
/-- T97. -/
theorem test_skp_not :
    afterStep (((placed 0xEA9E).setReg 10 0x05).setKey 0x0040) (fun t => t.pc) = some 0x0202 := by decide
/-- T99. -/
theorem test_sknp :
    afterStep ((placed 0xEAA1).setReg 10 0x05) (fun t => t.pc) = some 0x0204 := by decide
/-- T101. -/
theorem test_sknp_not :
    afterStep (((placed 0xEAA1).setReg 10 0xFF).setKey 0x8000) (fun t => t.pc) = some 0x0202 := by decide
/-- T104: keys 3, 9, 12 down, the lowest is reported. -/
theorem test_ldVxK :
    afterStep ((placed 0xFA0A).setKey 0x1208) (fun t => (t.reg 10, t.pc)) = some (3, 0x0202) := by decide
/-- T102. -/
theorem test_ldVxK_waits :
    afterStep ((placed 0xFA0A).setReg 10 0x77) (fun t => (t.reg 10, t.pc)) = some (0x77, 0x0200) := by decide
/-- T107: reads DT, not ST. -/
theorem test_ldVxDT :
    afterStep (((placed 0xFA07).setSt 9).setReg 10 0x55) (fun t => (t.reg 10, t.pc)) = some (0, 0x0202) := by decide
/-- T108. -/
theorem test_ldDTVx :
    afterStep ((placed 0xFA15).setReg 10 0xFF) (fun t => (t.dt, t.st, t.pc)) = some (0xFF, 0, 0x0202) := by decide
/-- T110. -/
theorem test_ldSTVx :
    afterStep ((placed 0xFA18).setReg 10 0x02) (fun t => (t.st, t.dt, tone t)) = some (2, 0, true) := by decide
/-- T115: low 4 bits. -/
theorem test_ldF :
    afterStep ((placed 0xFA29).setReg 10 0x1F) (fun t => (t.i, t.pc)) = some (0x004B, 0x0202) := by decide
/-- T117: 234. -/
theorem test_ldB :
    afterStep (((placed 0xFA33).setReg 10 234).setI 0x300) (fun t => (t.mem.peek 0x300, t.mem.peek 0x301, t.mem.peek 0x302, t.i)) = some (2, 3, 4, 0x300) := by decide
/-- T122: nothing written. -/
theorem test_ldB_fault :
    afterStep (((placed 0xFA33).setReg 10 255).setI 0x0FFE) (fun t => (t.mem.peek 0xFFE, t.pc, t.halt)) = some (0, 0x0200, some (.outOfBounds 0x1000)) := by decide
/-- T124: V0 to V2, V3 not stored, I kept. -/
theorem test_storeRegs :
    afterStep ((((((placed 0xF255).setReg 0 0x11).setReg 1 0x22).setReg 2 0x33).setReg 3 0x44).setI 0x300) (fun t => ((List.range 4).map fun k => t.mem.peek (0x300 + k), t.i)) = some ([0x11, 0x22, 0x33, 0x00], 0x300) := by decide
/-- T127 with x = F: nothing written. -/
theorem test_storeRegs_fault :
    afterStep (((placed 0xFF55).setReg 0 0xA0).setI 0x0FF1) (fun t => (t.mem.peek 0xFF1, t.pc, t.halt)) = some (0, 0x0200, some (.outOfBounds 0x1000)) := by decide
/-- T131: the first 16 font bytes. -/
theorem test_loadRegs :
    afterStep (placed 0xFF65) (fun t => t.v.toList) = some [0xF0, 0x90, 0x90, 0x90, 0xF0, 0x20, 0x60, 0x20, 0x20, 0x70, 0xF0, 0x10, 0xF0, 0x80, 0xF0, 0xF0] := by decide
/-- T132: V0 kept. -/
theorem test_loadRegs_fault :
    afterStep (((placed 0xF165).setReg 0 0x77).setI 0x0FFF) (fun t => (t.reg 0, t.pc, t.halt)) = some (0x77, 0x0200, some (.outOfBounds 0x1000)) := by decide
/-- T140. -/
theorem test_unknown_permissive :
    afterStep (placed 0x5AB1) (fun t => (t.pc, t.events, t.halt)) = some (0x0202, [.warn 0x5AB1], none) := by decide
/-- T151. -/
theorem test_unknown_strict :
    afterStep ((placed 0x5AB1).setStrict true) (fun t => (t.pc, t.events, t.halt)) = some (0x0200, [], some (.unknownOpcode 0x5AB1)) := by decide
/-- T135. -/
theorem test_fetch_fault_4095 :
    afterStep ((placed 0x6A00).setPc 0x0FFF) (fun t => (t.pc, t.halt)) = some (0x0FFF, some (.outOfBounds 0x1000)) := by decide
/-- T137. -/
theorem test_fetch_fault_above :
    afterStep ((placed 0).setPc 0x10FE) (fun t => (t.pc, t.halt)) = some (0x10FE, some (.outOfBounds 0x10FE)) := by decide

/-! ## The other agents' actions -/

/-- K1: DT = 5 is 0 after five ticks and stays 0. -/
theorem test_ticks :
    afterAll (List.replicate 4 .tick) (State.reset.setDt 5) (·.dt) = some 1 ∧
    afterAll (List.replicate 6 .tick) (State.reset.setDt 5) (·.dt) = some 0 := by decide
/-- K8 and K9: the two orders of a tick and a step give different values. -/
theorem test_tick_and_step_orders :
    afterAll [.tick, .step] ((placed 0xFA07).setDt 1) (fun t => (t.reg 10, t.dt)) = some (0, 0) ∧
    afterAll [.step, .tick] ((placed 0xFA07).setDt 1) (fun t => (t.reg 10, t.dt)) = some (1, 0) := by decide
/-- H1, H6 and H12: loads that fit, the first at the default origin. -/
theorem test_load :
    afterAll [.load [0xAA, 0xAA], .load [0xBB] 0x201, .load [0xCC] 0xFFF] State.reset
      (fun t => (t.mem.peek 0x200, t.mem.peek 0x201, t.mem.peek 0xFFF, t.pc)) =
      some (0xAA, 0xBB, 0xCC, 0x0200) := by decide
/-- H7 and H10: RomTooLarge, nothing copied. -/
theorem test_load_too_large :
    load State.reset [0xAA, 0xAA] 0xFFF = .fault .romTooLarge ∧ load State.reset [] 0x1001 = .fault .romTooLarge ∧
    afterAll [.load [0xAA, 0xAA] 0xFFF] State.reset (fun t => (t.mem, t.halt, t.events)) =
      some ([], none, [.loadError]) := ⟨rfl, rfl, by decide⟩
/-- Z2 and Z3: reset leaves the halt, restores the font, keeps the keypad. -/
theorem test_reset_action :
    afterAll [.load [0x11] 0x000, .setKeys 0x0102, .reset] (State.reset.setHalt (some (.stackFault .overflow)))
      (fun t => (t.mem.peek 0, t.key, t.halt, t.pc)) = some (0xF0, 0x0102, none, 0x0200) := by decide
/-- R201, R202: from the first step on, neither a load nor a choice of STRICT is offered; a reset puts STRICT back at
its default and offers both again. -/
theorem test_offered_only_while_booting :
    afterAll [.setStrict true, .step, .load [0xAA], .setStrict false] State.reset
      (fun t => (t.mem.peek 0x200, t.strict, t.events)) = some (0, true, []) ∧
    afterAll [.setStrict true, .step, .reset] State.reset (·.strict) = some false ∧
    afterAll [.step, .reset, .setStrict true, .load [0xAA]] State.reset
      (fun t => (t.mem.peek 0x200, t.strict)) = some (0xAA, true) := by decide
/-- S4: drawing the same sprite twice restores the framebuffer and sets VF. -/
theorem test_draw_twice :
    afterAll [.step, .step]
      (withByte (withByte (withByte ((placed 0xDAB1).setI 0x300) 0x202 0xDA) 0x203 0xB1) 0x300 0xFF)
      (fun t => (t.fb, t.reg 15, t.pc)) = some (Framebuffer.clear, 1, 0x0204) := by decide
/-- STEPS_PER_TICK = 2 for five steps (60_exceptions.md R181): a tick after every second step. -/
theorem test_ticking : ticking 2 0 5 = [.step, .step, .tick, .step, .step, .tick, .step] := by decide
/-- The infinite schedule begins as the finite one does. -/
theorem test_stepsPerTick : (stepsPerTick 2).upTo 7 = [.step, .step, .tick, .step, .step, .tick, .step] := by decide
/-- The parameter 0, for which the spec gives no meaning, is taken as 1 in both (assumption 15). -/
theorem test_stepsPerTick_zero :
    (stepsPerTick 0).upTo 4 = [.step, .tick, .step, .tick] ∧ ticking 0 0 2 = [.step, .tick, .step, .tick] := by decide
/-- The order of R202, step by step, a load that fails and one that succeeds after it among them. -/
theorem test_bootOrder_accepts :
    bootOrder .running [.reset, .setStrict true, .load [0x12, 0x00], .step, .tick, .setKeys 1, .step] = true ∧
    bootOrder .fresh [.setKeys 1, .load [0xAA, 0xAA] 0xFFF, .load [0x12, 0x00], .load [0xAA] 0x300, .tick] = true := by
  decide
/-- What breaks the order of R202: a step or a tick with no load, or after a load that failed; STRICT after a load; a
load or a choice of STRICT during the run. -/
theorem test_bootOrder_refuses :
    bootOrder .running [.reset, .step] = false ∧ bootOrder .running [.reset, .tick] = false ∧
    bootOrder .fresh [.load [0x12, 0x00], .load [0xAA, 0xAA] 0xFFF, .step] = false ∧
    bootOrder .fresh [.load [0x12, 0x00], .setStrict true] = false ∧
    bootOrder .fresh [.load [0x12, 0x00], .step, .load [0x12, 0x00]] = false ∧
    bootOrder .fresh [.load [0x12, 0x00], .step, .setStrict true] = false := by decide
/-- The numeric codes of R170. -/
theorem test_haltCode :
    haltCode State.reset = 0 ∧ haltCode (State.reset.setHalt (some (.outOfBounds 4096))) = 1 ∧
    haltCode (State.reset.setHalt (some (.stackFault .overflow))) = 2 ∧
    haltCode (State.reset.setHalt (some (.unknownOpcode 0x5121))) = 3 ∧ faultCode .romTooLarge = 4 := by decide

/-! ## Witnesses: the hypotheses of the obligations can be met, clause by clause, at the ends of their ranges -/

/-- `s` halted by a stack overflow. -/
def halted : State := State.reset.setHalt (some (.stackFault .overflow))

/-- The premise of DecodeInvertsEncode. -/
theorem witness_DecodeInvertsEncode : (Instr.sys 0x0E1).wf = true ∧ (Instr.shl 15 15).wf = true := by decide
/-- The premise of EncodeInvertsDecode. -/
theorem witness_EncodeInvertsDecode : decode 0xFF65 = .instr (.loadRegs 15) := by decide
/-- The premises of the first two clauses of DecodeFollowsMaskAndMatch, a word of a FIXED row and one of a free row. -/
theorem witness_DecodeFollowsMaskAndMatch :
    decode 0x00EE = .instr .ret ∧ (0x00EE : Word) &&& (tableRow (.sys 0)).mask = (tableRow (.sys 0)).pat ∧
    decode 0x812E = .instr (.shl 1 2) ∧
    (0x812E : Word) &&& (tableRow (.shl 1 2)).mask = (tableRow (.shl 1 2)).pat := by decide
/-- The premise of the last clause of DecodeFollowsMaskAndMatch: a word of no row. -/
theorem witness_DecodeFollowsMaskAndMatch_noRow (i : Instr) :
    (0x5121 : Word) &&& (tableRow i).mask ≠ (tableRow i).pat := by
  cases i <;> (simp only [tableRow]; decide)

/-- The premises of LoadCopiesOrRejects: the largest ROM, and one byte more (H2, H3, H10); booting, and running. -/
theorem witness_LoadCopiesOrRejects :
    State.reset.mem.wf = true ∧ State.reset.phase = .booting ∧
    0x200 + (List.replicate 3584 (0xAA : Byte)).length ≤ 4096 ∧
    0x200 + (List.replicate 3585 (0xAA : Byte)).length > 4096 ∧ 0x1001 + ([] : List Byte).length > 4096 ∧
    (placed 0x1200).mem.wf = true ∧ (placed 0x1200).phase = .running := by
  simp only [List.length_replicate, List.length_nil]; decide
/-- The premise of BootState: the largest ROM. -/
theorem witness_BootState : (List.replicate 3584 (0xAA : Byte)).length ≤ 3584 := by
  simp only [List.length_replicate]; decide
/-- The premises of RunOffersNoLoad: a running state and actions other than reset, a step and a load among them; and a
list in the order of R202, from before a load and from a run. -/
theorem witness_RunOffersNoLoad :
    (placed 0x1200).phase = .running ∧ Action.step ≠ .reset ∧ perform .step (placed 0x1200) = .next (placed 0x1200) ∧
    Action.load [0xAA] 0x200 ≠ .reset ∧ perform (.load [0xAA]) (placed 0x1200) = .next (placed 0x1200) ∧
    (BootStage.fresh ≠ .running → State.reset.phase = .booting) ∧
    (BootStage.running ≠ .running → (placed 0x1200).phase = .booting) ∧
    bootOrder .fresh [.setStrict true, .load [0x12, 0x00], .step] = true ∧
    bootOrder .running [.tick, .reset, .load [0x12, 0x00], .step] = true :=
  ⟨rfl, nofun, rfl, nofun, rfl, fun _ => rfl, fun h => absurd rfl h, by decide, by decide⟩

/-- The premises of the first three clauses of StepRunsDecodedInstruction: halted, and PC at 0x1000 and at 4095. -/
theorem witness_StepRunsDecodedInstruction_stops :
    halted.agenda = [] ∧ halted.halt ≠ none ∧ (State.reset.setPc 0x1000).halt = none ∧
    (State.reset.setPc 0x1000).pc.toNat > 4095 ∧ (State.reset.setPc 0x0FFF).pc.toNat = 4095 := by decide
/-- The premises of the clauses that execute: an instruction at the last fetchable address (T134), an Unknown word. -/
theorem witness_StepRunsDecodedInstruction_runs :
    (State.reset.setPc 0x0FFE |>.withFetchWord 16 0x1200).pc.toNat = 4094 ∧
    decode (wordOfBytes ((State.reset.setPc 0x0FFE |>.withFetchWord 16 0x1200).mem.peek 4094)
      ((State.reset.setPc 0x0FFE |>.withFetchWord 16 0x1200).mem.peek 4095)) = .instr (.jp 0x200) ∧
    decode (wordOfBytes ((placed 0x5121).mem.peek 0x200) ((placed 0x5121).mem.peek 0x201)) = .unknown 0x5121 := by
  decide
/-- The premise of the clause about the agents' actions. -/
theorem witness_StepRunsDecodedInstruction_agenda :
    (State.reset.setAgenda [.tick, .step]).agenda = .tick :: [.step] := rfl
/-- The premises of UnknownOpcodePolicy, permissive and strict. -/
theorem witness_UnknownOpcodePolicy :
    (placed 0x5121).halt = none ∧ (placed 0x5121).pc.toNat ≤ 4094 ∧
    0x5121 = wordOfBytes ((placed 0x5121).mem.peek 0x200) ((placed 0x5121).mem.peek 0x201) ∧
    decode 0x5121 = .unknown 0x5121 ∧ (placed 0x5121).strict = false ∧
    ((placed 0x5121).setStrict true).strict = true := by decide
/-- The premise of FetchIsBigEndian at its bound. -/
theorem witness_FetchIsBigEndian : (State.reset.setPc 0x0FFE).pc.toNat ≤ 4094 := by decide

/-- The premises of FaultChangesOnlyHalt. -/
theorem witness_FaultChangesOnlyHalt :
    ∃ t, (placed 0x00EE).halt = none ∧ cycle (placed 0x00EE) = .next t ∧ t.halt ≠ none :=
  ⟨(placed 0x00EE).setHalt (some (.stackFault .underflow)), rfl, rfl, nofun⟩
/-- The premises of HaltIsFinal. -/
theorem witness_HaltIsFinal :
    halted.halt ≠ none ∧
    ∀ a ∈ [Action.step, .tick, .setKeys 5], a = .step ∨ a = .tick ∨ ∃ k, a = .setKeys k := by
  refine ⟨nofun, fun a ha => ?_⟩
  simp only [List.mem_cons, List.not_mem_nil, or_false] at ha
  rcases ha with rfl | rfl | rfl
  · exact .inl rfl
  · exact .inr (.inl rfl)
  · exact .inr (.inr ⟨5, rfl⟩)
/-- The premises of HaltCausesAreListed, once for each cause: the fetch, Unknown, CALL, RET, DRW, LD B, LD [I],
LD Vx, [I]. -/
theorem witness_HaltCausesAreListed :
    afterStep (State.reset.setPc 0x0FFF) (·.halt) = some (some (.outOfBounds 4096)) ∧
    afterStep ((placed 0x5121).setStrict true) (·.halt) = some (some (.unknownOpcode 0x5121)) ∧
    afterStep ((placed 0x2ABC).setStack (List.replicate 16 0)) (·.halt) = some (some (.stackFault .overflow)) ∧
    afterStep (placed 0x00EE) (·.halt) = some (some (.stackFault .underflow)) ∧
    afterStep ((placed 0xDAB1).setI 0x1000) (·.halt) = some (some (.outOfBounds 4096)) ∧
    afterStep ((placed 0xFA33).setI 0x0FFE) (·.halt) = some (some (.outOfBounds 4096)) ∧
    afterStep ((placed 0xF155).setI 0x0FFF) (·.halt) = some (some (.outOfBounds 4096)) ∧
    afterStep ((placed 0xF065).setI 0xFFFF) (·.halt) = some (some (.outOfBounds 65535)) := by decide

/-- A state with the invariant that is not the reset state: a full stack of legal entries, an instruction placed. -/
def busy : State := (placed 0x1200).setStack (List.replicate 16 0x1000)

theorem busy_inv : busy.Inv where
  memory := by decide
  depth := by decide
  entries w hw := by rw [List.eq_of_mem_replicate hw]; decide
  pcBound := by decide
  haltRecord := nofun
  haltedRuns _ := rfl
  firstStep := nofun

theorem reset_inv : State.reset.Inv where
  memory := rfl
  depth := by decide
  entries := nofun
  pcBound := by decide
  haltRecord := nofun
  haltedRuns h := absurd rfl h
  firstStep _ := ⟨rfl, by decide, rfl, rfl, rfl, rfl, fun px py => by simp [State.reset, Framebuffer.pixel]⟩

/-- The premises of StepKeepsInvariant, in the reset state and in another. -/
theorem witness_StepKeepsInvariant :
    (∃ t, busy.Inv ∧ step busy = .next t) ∧ (∃ t, State.reset.Inv ∧ step State.reset = .next t) :=
  ⟨⟨busy, busy_inv, rfl⟩, ⟨(State.reset.setPhase .running).advance, reset_inv, rfl⟩⟩
/-- The premise of AgentsWriteOnlyTheirOwn, for each agent's action, and for two that are not offered. -/
theorem witness_AgentsWriteOnlyTheirOwn :
    perform .step State.reset = .next (State.reset.setPhase .running).advance ∧
    perform .tick State.reset = .next State.reset ∧
    perform (.setKeys 3) State.reset = .next (State.reset.setKey 3) ∧
    perform .reset (halted.setStrict true) = .next State.reset ∧
    perform (.setStrict true) State.reset = .next (State.reset.setStrict true) ∧
    perform (.setStrict true) busy = .next busy ∧
    perform (.load [0xAA] 0x200) State.reset = .next (withByte State.reset 0x200 0xAA) ∧
    perform (.load [0xAA] 0x200) busy = .next busy := ⟨rfl, rfl, rfl, rfl, rfl, rfl, rfl, rfl⟩
/-- The premises of InstructionsWriteOnlyTheirParts and of FlagWritersAreListed. -/
theorem witness_InstructionsWriteOnlyTheirParts :
    ∃ t, State.reset.halt = none ∧ exec (.addReg 10 11) State.reset = .next t ∧ t.halt = none := ⟨_, rfl, rfl, rfl⟩
/-- The premises of the register clause of FlagWritersAreListed: a destination that is not VF. -/
theorem witness_FlagWritersAreListed :
    ∃ t, State.reset.halt = none ∧ exec (.loadRegs 14) State.reset = .next t ∧ t.halt = none ∧ (14 : Reg) ≠ vf :=
  ⟨_, rfl, rfl, rfl, by decide⟩
/-- The premise of AgendaRunsEveryInterleaving. -/
theorem witness_AgendaRunsEveryInterleaving : State.reset.agenda = [] := rfl
/-- The premise of SoundTimerIsWriteOnly and of DisplayShowsOnlyAsCollision. -/
theorem witness_SoundTimerIsWriteOnly : ∃ t, exec (.ldVxDT 10) (State.reset.setSt 9) = .next t := ⟨_, rfl⟩
/-- The premises of the last clause of DisplayShowsOnlyAsCollision: an instruction that is not DRW. -/
theorem witness_DisplayShowsOnlyAsCollision :
    (∃ t, exec .cls State.reset = .next t) ∧ ∀ x y n, Instr.cls ≠ .drw x y n := ⟨⟨_, rfl⟩, nofun⟩

/-- The premises of MemReadAndMemWrite at the two sides of the bound. -/
theorem witness_MemReadAndMemWrite : (withByte State.reset 4095 7).mem.wf = true ∧ 4096 > 4095 ∧ 4095 ≤ 4095 := by
  decide
/-- The premises of CanonicalMemoriesAreEqual: the same writes in two orders. -/
theorem witness_CanonicalMemoriesAreEqual :
    ((State.reset.mem.poke 0x300 1).poke 0x200 2).wf = true ∧ ((State.reset.mem.poke 0x200 2).poke 0x300 1).wf = true ∧
    ∀ a, ((State.reset.mem.poke 0x300 1).poke 0x200 2).peek a = ((State.reset.mem.poke 0x200 2).poke 0x300 1).peek a :=
  ⟨by decide, by decide, fun _ => rfl⟩
/-- The premises of StoreIsSeenByFetch (T128): the first address a fetch may have, the last, and the two partial
overlaps, at I - 1 and at the last byte stored. -/
theorem witness_StoreIsSeenByFetch :
    (State.reset.setI 0x0202).mem.wf = true ∧ (State.reset.setI 0x0202).i.toNat + (1 : Reg).val ≤ 4095 ∧
    (State.reset.setI 0x0FFE).i.toNat + (1 : Reg).val ≤ 4095 ∧ (State.reset.setI 0x0FFD).i.toNat + 2 ≤ 4095 ∧
    (0 : Word).toNat ≤ 4094 ∧ (0x0FFE : Word).toNat ≤ 4094 ∧ (0x0201 : Word).toNat ≤ 4094 ∧
    (0x0203 : Word).toNat ≤ 4094 := by decide
/-- What a fetch over a partial overlap gives, hand made: `V0 = 0xAB` stored at 0x202 over zeros, fetched from 0x201 and
from 0x202; and the digits 2, 3, 4 of 234 at 0x202, fetched from 0x204. -/
theorem test_store_partly_fetched :
    (∃ t, exec (.storeRegs 0) ((State.reset.setI 0x0202).setReg 0 0xAB) = .next t ∧
      (fetch (t.setPc 0x0201)).toOption = some 0x00AB ∧ (fetch (t.setPc 0x0202)).toOption = some 0xAB00) ∧
    (∃ t, exec (.ldB 0) ((State.reset.setI 0x0202).setReg 0 234) = .next t ∧
      (fetch (t.setPc 0x0204)).toOption = some 0x0400) :=
  ⟨⟨_, rfl, rfl, rfl⟩, ⟨_, rfl, rfl⟩⟩

/-- The premises of the two clauses of CallPushesReturnAddress where they meet (T12, T13). -/
theorem witness_CallPushesReturnAddress :
    (State.reset.setStack (List.replicate 15 0)).stack.length < 16 ∧
    (State.reset.setStack (List.replicate 16 0)).stack.length = 16 := by decide
/-- The premises of the two clauses of RetPopsReturnAddress (T5, T6). -/
theorem witness_RetPopsReturnAddress :
    (State.reset.setStack [0x0ABC, 0x0202]).stack = 0x0ABC :: [0x0202] ∧ State.reset.stack = [] := ⟨rfl, rfl⟩
/-- The premises of CallReturnRoundTrip (S5): a state with the stack that CALL left. -/
theorem witness_CallReturnRoundTrip :
    ∃ t, exec (.call 0x300) State.reset = .next t ∧ State.reset.stack.length < 16 ∧
      (State.reset.setStack t.stack).stack = t.stack := ⟨_, rfl, by decide, rfl⟩
/-- The premises of IdleProgramOnlyTimersChange: `JP 0x200` at 0x200, and some interleaving. -/
theorem witness_IdleProgramOnlyTimersChange :
    ((placed 0x1200).setDt 5).idle ∧ ∀ a ∈ [Action.step, .tick, .step], a = .step ∨ a = .tick := by
  refine ⟨⟨rfl, by decide, 0x200, by decide, by decide⟩, by decide⟩

/-- Both cases of the conditions of SkipsOnByte and SkipsOnRegister. -/
theorem witness_Skips :
    (State.reset.setReg 10 0x42).reg 10 = 0x42 ∧ (State.reset.setReg 10 0x43).reg 10 ≠ 0x42 ∧
    State.reset.reg 3 = State.reset.reg 4 ∧ (State.reset.setReg 3 1).reg 3 ≠ (State.reset.setReg 3 1).reg 4 := by decide
/-- Both cases of the condition of SkipsOnKey, the index taken from the low 4 bits (T100, T97). -/
theorem witness_SkipsOnKey :
    ((State.reset.setReg 10 0x15).setKey 0x0020).key.getLsbD
      ((((State.reset.setReg 10 0x15).setKey 0x0020).reg 10).toNat % 16) = true ∧
    ((State.reset.setReg 10 0x05).setKey 0x0040).key.getLsbD
      ((((State.reset.setReg 10 0x05).setKey 0x0040).reg 10).toNat % 16) = false := by decide
/-- The premises of ArithmeticIdentities, one for each clause. -/
theorem witness_ArithmeticIdentities :
    (10 : Reg) ≠ vf ∧ (∃ t, exec (.addReg 10 15) State.reset = .next t) ∧
    (∃ t, exec (.sub 10 15) State.reset = .next t) ∧ (∃ t, exec (.subn 10 15) State.reset = .next t) ∧
    (∃ t, exec (.shr 10 15) State.reset = .next t) ∧ (∃ t, exec (.shl 10 15) State.reset = .next t) :=
  ⟨by decide, ⟨_, rfl⟩, ⟨_, rfl⟩, ⟨_, rfl⟩, ⟨_, rfl⟩, ⟨_, rfl⟩⟩
/-- The two cases of the destination of a flagged result: x other than VF, and x VF (R125). -/
theorem witness_FlaggedDestination : (10 : Reg) ≠ vf ∧ ¬((15 : Reg) ≠ vf) := by decide

/-- The premises of the two clauses of DrwXorsSprite where they meet (T92, T93), and with no rows (T90). -/
theorem witness_DrwXorsSprite :
    (State.reset.setI 0x0FF1).i.toNat + (15 : Height).val - 1 ≤ 4095 ∧
    ((15 : Height).val ≠ 0 ∧ (State.reset.setI 0x0FF2).i.toNat + (15 : Height).val - 1 > 4095) ∧
    (0 : Height).val = 0 := by decide
/-- A pixel that a sprite covers, lit and unlit, and one that it does not (T84, T86). -/
theorem witness_DrwXorsSprite_pixels :
    spriteCovers State.reset 0 0 1 0 0 ∧ ¬spriteCovers State.reset 0 0 1 4 0 ∧
    State.reset.fb.pixel 0 0 = false ∧ (State.reset.setFb (Framebuffer.clear.flip 0 0)).fb.pixel 0 0 = true := by
  refine ⟨⟨0, 0, by decide, by decide, by decide, by decide, by decide⟩, ?_, by decide, by decide⟩
  rintro ⟨r, c, hr, hc, hb, hx, -⟩
  have hr0 : r = 0 := Nat.lt_one_iff.1 hr
  have hv : (State.reset.reg 0).toNat = 0 := by decide
  rw [hv] at hx
  have hc4 : c = 4 := by simp at hx; omega
  subst hr0 hc4
  revert hb; decide
/-- The premises of DrawingTwiceRestores: a glyph on the clear screen. -/
theorem witness_DrawingTwiceRestores :
    (0 : Reg) ≠ vf ∧ (1 : Reg) ≠ vf ∧ State.reset.i.toNat + (5 : Height).val - 1 ≤ 4095 ∧
    (∃ px py, spriteCovers State.reset 0 1 5 px py) ∧
    ∀ px py, spriteCovers State.reset 0 1 5 px py → State.reset.fb.pixel px py = false :=
  ⟨by decide, by decide, by decide, ⟨0, 0, 0, 0, by decide, by decide, by decide, by decide, by decide⟩,
    fun px py _ => by simp [State.reset, Framebuffer.pixel]⟩

/-- The premises of the two clauses of KeyWait: keys 3, 9, 12 down (T104), and none. -/
theorem witness_KeyWait :
    (State.reset.setKey 0x1208).key.getLsbD (3 : Fin 16).val = true ∧
    (∀ j : Fin 16, j < 3 → (State.reset.setKey 0x1208).key.getLsbD j.val = false) ∧
    ∀ k : Fin 16, State.reset.key.getLsbD k.val = false := by decide
/-- The premises of TickDecrementsTimers: running with a timer above 0 and one at 0, and halted. -/
theorem witness_TickDecrementsTimers :
    (State.reset.setDt 1).halt = none ∧ (State.reset.setDt 1).dt.toNat > 0 ∧ (State.reset.setDt 1).st.toNat = 0 ∧
    (State.reset.setSt 0xFF).st.toNat > 0 ∧ halted.halt ≠ none := by decide
/-- The premise of TimersRunDownToZero. -/
theorem witness_TimersRunDownToZero : ((State.reset.setDt 5).setSt 255).halt = none := rfl
/-- What stands at PC in `placed 0x1200`. -/
theorem decode_at_idle :
    decode (wordOfBytes ((placed 0x1200).mem.peek 0x200) ((placed 0x1200).mem.peek 0x201)) = .instr (.jp 0x200) := by
  decide
/-- Idle at 0x200 with a timer, in the schedule of one tick after every step: only DT moves. -/
theorem run_of_idle (n : Nat) :
    ∃ d, runTo (stepsPerTick 1) ((placed 0x1200).setDt 5) n = .next ((placed 0x1200).setDt d) := by
  induction n with
  | zero => exact ⟨5, rfl⟩
  | succ n ih =>
    obtain ⟨d, hd⟩ := ih
    rw [runTo_succ hd]
    simp only [stepsPerTick]
    split
    · exact ⟨countDown d, rfl⟩
    · refine ⟨d, ?_⟩
      have hp : 0x200 + 1 < Config.memSize := by decide
      rw [perform_step, beginRun_of_running rfl]
      exact cycle_of_instr (s := ((placed 0x1200).setDt d).setPhase .running) rfl hp decode_at_idle
/-- The premises of ProgressRunsDelayTimerOut: the idle program of JP 0x200 with DT = 5, a tick after every step. -/
theorem witness_ProgressRunsDelayTimerOut :
    progress (stepsPerTick 1) ((placed 0x1200).setDt 5) ∧
    (∀ n, stepsPerTick 1 n = .step ∨ stepsPerTick 1 n = .tick ∨ ∃ k, stepsPerTick 1 n = .setKeys k) ∧
    ∀ n t, runTo (stepsPerTick 1) ((placed 0x1200).setDt 5) n = .next t → t.halt = none ∧
      (stepsPerTick 1 n = .step → ∀ x,
        decode (wordOfBytes (t.mem.peek t.pc.toNat) (t.mem.peek (t.pc.toNat + 1))) ≠ .instr (.ldDTVx x)) := by
  refine ⟨stepsPerTick_progress 1 _, fun n => ?_, fun n t ht => ?_⟩
  · simp only [stepsPerTick]
    split
    · exact .inr (.inl rfl)
    · exact .inl rfl
  · obtain ⟨d, hd⟩ := run_of_idle n
    rw [hd] at ht
    cases ht
    refine ⟨rfl, fun _ x h => ?_⟩
    have := decode_at_idle.symm.trans h
    cases this
/-- The premises of the two clauses of BcdStore where they meet (T121, T122). -/
theorem witness_BcdStore :
    (State.reset.setI 0x0FFD).mem.wf = true ∧ (State.reset.setI 0x0FFD).i.toNat + 2 ≤ 4095 ∧
    (State.reset.setI 0x0FFE).i.toNat + 2 > 4095 := by decide
/-- The premises of the two clauses of BlockStore, BlockLoad and BlockStoreThenLoad where they meet (T126, T127,
T132). -/
theorem witness_BlockMoves :
    (State.reset.setI 0x0FF0).mem.wf = true ∧ (State.reset.setI 0x0FF0).i.toNat + (15 : Reg).val ≤ 4095 ∧
    (State.reset.setI 0x0FF1).i.toNat + (15 : Reg).val > 4095 ∧
    (State.reset.setI 0x0FFF).i.toNat + (0 : Reg).val ≤ 4095 ∧
    (State.reset.setI 0x0FFF).i.toNat + (1 : Reg).val > 4095 ∧ (15 : Reg) ≤ 15 ∧ (0 : Reg) < 1 := by decide
/-- A later state for BlockStoreThenLoad: the memory and I that the store left, other registers cleared. -/
theorem witness_BlockStoreThenLoad :
    ∃ t, exec (.storeRegs 1) ((State.reset.setI 0x300).setReg 0 7) = .next t ∧
      (t.setReg 0 0).mem = t.mem ∧ (t.setReg 0 0).i = ((State.reset.setI 0x300).setReg 0 7).i := ⟨_, rfl, rfl, rfl⟩
/-- The premise of ExecutionIsPositionIndependent, for CALL and for a skip. -/
theorem witness_ExecutionIsPositionIndependent :
    (∃ t, exec (.call 0x300) State.reset = .next t) ∧ ∃ t, exec (.seReg 0 1) State.reset = .next t :=
  ⟨⟨_, rfl⟩, ⟨_, rfl⟩⟩

end Sys2Proof.Tests
end

section
/-! What every piece of state reads as after reset (10_state.md R36), for the statements about the reset state. -/

namespace Sys2Proof.Machine

/-- The font ends at 0x04F, and every address behind it reads as zero where nothing is listed (R36, R58). -/
theorem background_of_font_end_le {a : Nat} (h : 80 ≤ a) : background a = 0 := by
  have hlen : fontBytes.length = 80 := rfl
  have hbase : Config.fontBase = 0 := rfl
  rw [background, hbase, if_neg (Nat.not_lt_zero a)]
  exact List.getD_eq_default fontBytes 0 (by omega)

/-- Memory that lists no byte reads as its reset contents (assumption 8). -/
theorem readsAsReset_nil : readsAsReset [] :=
  ⟨fun _ ha => background_of_font_end_le ha, rfl⟩

theorem State.reset_readsAsReset : readsAsReset State.reset.mem := readsAsReset_nil

@[simp] theorem State.reset_reg (r : Reg) : State.reset.reg r = 0 :=
  Vector.getElem_replicate r.isLt

theorem State.reset_fb : State.reset.fb = Framebuffer.clear := rfl

@[simp] theorem State.reset_pixel (x : Fin 64) (y : Fin 32) : State.reset.fb.pixel x y = false := by
  rw [State.reset_fb, Framebuffer.pixel_clear]

/-- Settles O7: the register file, memory and the framebuffer by their lemmas above; every other piece is a field of
`State.reset`, and `tone` and the halt code are computed from such a field. -/
theorem resetValues : Obligations.ResetValues :=
  ⟨State.reset_reg, rfl, rfl, rfl, rfl, rfl, rfl, State.reset_readsAsReset, State.reset_pixel, rfl, rfl, rfl⟩

end Sys2Proof.Machine
end

section
/-! One byte read and written (20_memory.md R51, R52). -/

namespace Sys2Proof.Machine

theorem memWrite_of_ge {m : Memory} {a : Nat} (h : Config.memSize ≤ a) (b : Byte) :
    memWrite m a b = .error (.outOfBounds a) := by
  simp [memWrite, Nat.not_lt.2 h]

/-- The written byte is the one read back (R51, R52). -/
theorem memRead_poke_same {m : Memory} (h : m.wf = true) {a : Nat} (ha : a < Config.memSize) (b : Byte) :
    memRead (m.poke a b) a = .ok b := by
  rw [memRead_of_lt ha, Memory.peek_poke h, if_pos rfl]

/-- Another address reads as before, a fault above 4095 included (R51, R52). -/
theorem memRead_poke_of_ne {m : Memory} (h : m.wf = true) {a q : Nat} (hq : q ≠ a) (b : Byte) :
    memRead (m.poke a b) q = memRead m q := by
  by_cases hlt : q < Config.memSize
  · rw [memRead_of_lt hlt, memRead_of_lt hlt, Memory.peek_poke h, if_neg hq]
  · rw [memRead_of_ge (Nat.not_lt.1 hlt), memRead_of_ge (Nat.not_lt.1 hlt)]

/-- Settles O27: above 4095 both range checks fail; in range the write is `Memory.poke`, which keeps the canonical form
and changes what is read at its own address only. -/
theorem memReadAndMemWrite : Obligations.MemReadAndMemWrite := by
  intro m a b hwf
  refine ⟨fun hgt => ⟨memRead_of_ge hgt, memWrite_of_ge hgt b⟩, fun hle => ?_⟩
  have ha : a < Config.memSize := Nat.lt_succ_of_le hle
  exact ⟨memRead_of_lt ha, m.poke a b, memWrite_of_lt ha b, Memory.wf_poke hwf ha b, memRead_poke_same hwf ha b,
    fun _ hq => memRead_poke_of_ne hwf hq b⟩

end Sys2Proof.Machine
end

section
/-! One instruction run at two addresses (30_encoding.md R82): the three ways the second result follows from the first,
and which of them each instruction takes. -/

namespace Sys2Proof.Machine

/-- How the state that `i` leaves from `s` with PC at `p` follows from the state `t` that it leaves from `s`. -/
inductive ElsewhereFrom (i : Instr) (s : State) (p : Word) (t : State) : State → Prop where
  /-- A jump, or RET: the target does not come from PC. -/
  | jumped : ElsewhereFrom i s p t t
  /-- PC goes the same distance: 0, 2 or 4. -/
  | moved (d : Word) (hpc : t.pc = s.pc + d) : ElsewhereFrom i s p t (t.setPc (p + d))
  /-- CALL pushes the address behind itself. -/
  | called (hcall : ∃ nnn, i = .call nnn) (hstack : t.stack = (s.pc + 2) :: s.stack) :
      ElsewhereFrom i s p t (t.setStack ((p + 2) :: s.stack))

/-- `i` runs from `s` and from `s` with PC at `p`, and the two results correspond. -/
def RunsElsewhere (i : Instr) (s : State) (p : Word) : Prop :=
  ∃ t u, exec i s = .next t ∧ exec i (s.setPc p) = .next u ∧ ElsewhereFrom i s p t u

/-- The shape of an instruction that can fault: a check that raises its fault or answers what `k` goes on with. -/
def checkedThen {α : Type} (e : Except Fault α) (s : State) (k : α → State) : Result :=
  match e with
  | .error f => raise f s
  | .ok a => .next (k a)

/-! ## The instructions that can fault have this shape -/

theorem exec_ret_eq (s : State) :
    exec .ret s = checkedThen (pop s.stack) s fun a => (s.setStack a.2).setPc a.1 := by
  simp only [exec, execRet]
  cases pop s.stack <;> rfl

theorem exec_call_eq (nnn : Addr12) (s : State) :
    exec (.call nnn) s = checkedThen (push s.stack s.nextPc) s fun k => (s.setStack k).setPc (zextAddr nnn) := by
  simp only [exec, execCall]
  cases push s.stack s.nextPc <;> rfl

theorem exec_drw_eq (x y : Reg) (n : Height) (s : State) :
    exec (.drw x y n) s = checkedThen (readBlock s.mem s.i.toNat n.val) s fun rows => drawSprite x y rows s := by
  simp only [exec, execDrw]
  cases readBlock s.mem s.i.toNat n.val <;> rfl

theorem exec_ldB_eq (x : Reg) (s : State) :
    exec (.ldB x) s =
      checkedThen (storeBlock s.mem s.i.toNat (bcdDigits (s.reg x))) s fun m => (s.setMem m).advance := by
  simp only [exec, execLdB]
  cases storeBlock s.mem s.i.toNat (bcdDigits (s.reg x)) <;> rfl

theorem exec_storeRegs_eq (x : Reg) (s : State) :
    exec (.storeRegs x) s =
      checkedThen (storeBlock s.mem s.i.toNat (s.regsUpTo x)) s fun m => (s.setMem m).advance := by
  simp only [exec, execStoreRegs]
  cases storeBlock s.mem s.i.toNat (s.regsUpTo x) <;> rfl

theorem exec_loadRegs_eq (x : Reg) (s : State) :
    exec (.loadRegs x) s =
      checkedThen (readBlock s.mem s.i.toNat (blockCount x)) s fun bs => (s.setRegsFrom 0 bs).advance := by
  simp only [exec, execLoadRegs]
  cases readBlock s.mem s.i.toNat (blockCount x) <;> rfl

@[simp] theorem State.setRegsFrom_pc (s : State) (k : Nat) (bs : List Byte) : (s.setRegsFrom k bs).pc = s.pc := by
  rw [State.setRegsFrom_eq]

/-- Loading a block of registers does not look at PC (46_memory_block.md R163). -/
theorem State.setPc_setRegsFrom (bs : List Byte) (s : State) (p : Word) (k : Nat) :
    (s.setPc p).setRegsFrom k bs = (s.setRegsFrom k bs).setPc p := by
  induction bs generalizing s k with
  | nil => rfl
  | cons b bs ih => exact ih (s.setReg (Fin.ofNat 16 k) b) (k + 1)

/-! ## Every instruction runs elsewhere as it runs here -/

section
variable {i : Instr} {s t : State} {p : Word}

/-- An instruction that moves PC by `d` from wherever it stands, and whose other effects do not look at PC. -/
theorem RunsElsewhere.of_moved (d : Word) (hs : exec i s = .next t) (hp : exec i (s.setPc p) = .next (t.setPc (p + d)))
    (hpc : t.pc = s.pc + d) : RunsElsewhere i s p :=
  ⟨t, _, hs, hp, .moved d hpc⟩

/-- An instruction that leaves the same state from both addresses. -/
theorem RunsElsewhere.of_jumped (hs : exec i s = .next t) (hp : exec i (s.setPc p) = .next t) : RunsElsewhere i s p :=
  ⟨t, t, hs, hp, .jumped⟩

/-- A skip on a condition that does not look at PC (R81). -/
theorem RunsElsewhere.of_skip {c : Bool} (hs : exec i s = .next (s.skipIf c))
    (hp : exec i (s.setPc p) = .next ((s.setPc p).skipIf c)) : RunsElsewhere i s p := by
  cases c with
  | true => exact .of_moved 4 hs hp rfl
  | false => exact .of_moved 2 hs hp rfl

/-- A fault leaves PC where the instruction stands (60_exceptions.md R177). -/
theorem RunsElsewhere.of_raise {f : Fault} (hs : exec i s = raise f s) (hp : exec i (s.setPc p) = raise f (s.setPc p)) :
    RunsElsewhere i s p :=
  .of_moved 0 hs (by rw [hp, add_zero]; rfl) (add_zero _).symm

/-- A check that does not look at PC, before an effect and the advance. -/
theorem RunsElsewhere.of_checked {α : Type} {e : Except Fault α} {k : α → State} (hs : exec i s = checkedThen e s k)
    (hp : exec i (s.setPc p) = checkedThen e (s.setPc p) fun a => (k a).setPc (p + 2))
    (hpc : ∀ a, (k a).pc = s.pc + 2) : RunsElsewhere i s p := by
  cases e with
  | error f => exact .of_raise hs hp
  | ok a => exact .of_moved 2 hs hp (hpc a)

end

theorem runsElsewhere_ret (s : State) (p : Word) : RunsElsewhere .ret s p := by
  have hs := exec_ret_eq s
  have hp := exec_ret_eq (s.setPc p)
  rw [State.setPc_stack] at hp
  cases h : pop s.stack with
  | error f => rw [h] at hs hp; exact .of_raise hs hp
  | ok a => rw [h] at hs hp; exact .of_jumped hs hp

/-- Whether CALL overflows does not depend on the address pushed (40_control_flow.md R93). -/
theorem runsElsewhere_call (nnn : Addr12) (s : State) (p : Word) : RunsElsewhere (.call nnn) s p := by
  have hs := exec_call_eq nnn s
  have hp := exec_call_eq nnn (s.setPc p)
  rw [push_eq] at hs
  rw [push_eq, State.setPc_stack] at hp
  by_cases h : s.stack.length < 16
  · rw [if_pos h] at hs hp
    exact ⟨_, _, hs, hp, .called ⟨nnn, rfl⟩ rfl⟩
  · rw [if_neg h] at hs hp
    exact .of_raise hs hp

/-- LD Vx, K stays where it is while no key is down (44_keypad.md R142). -/
theorem runsElsewhere_ldVxK (x : Reg) (s : State) (p : Word) : RunsElsewhere (.ldVxK x) s p := by
  have hkey : (s.setPc p).lowestKey = s.lowestKey := rfl
  cases h : s.lowestKey with
  | none =>
    exact .of_moved 0 (t := s) (by simp [exec, execLdVxK, h]) (by simp [exec, execLdVxK, hkey, h])
      (add_zero _).symm
  | some k =>
    exact .of_moved 2 (t := (s.setReg x (BitVec.ofNat 8 k.val)).advance) (by simp [exec, execLdVxK, h])
      (by simp only [exec, execLdVxK, hkey, h]; rfl) rfl

theorem runsElsewhere_loadRegs (x : Reg) (s : State) (p : Word) : RunsElsewhere (.loadRegs x) s p := by
  refine .of_checked (exec_loadRegs_eq x s) ?_ fun bs => by simp
  rw [exec_loadRegs_eq]
  simp only [State.setPc_setRegsFrom]
  rfl

theorem runsElsewhere (i : Instr) (s : State) (p : Word) : RunsElsewhere i s p := by
  cases i with
  | jp _ | jpV0 _ => exact .of_jumped rfl rfl
  | ret => exact runsElsewhere_ret s p
  | call nnn => exact runsElsewhere_call nnn s p
  | seByte _ _ | sneByte _ _ | seReg _ _ | sneReg _ _ | skp _ | sknp _ => exact .of_skip rfl rfl
  | ldVxK x => exact runsElsewhere_ldVxK x s p
  | drw x y n => exact .of_checked (exec_drw_eq x y n s) (exec_drw_eq x y n (s.setPc p)) fun _ => rfl
  | ldB x => exact .of_checked (exec_ldB_eq x s) (exec_ldB_eq x (s.setPc p)) fun _ => rfl
  | storeRegs x => exact .of_checked (exec_storeRegs_eq x s) (exec_storeRegs_eq x (s.setPc p)) fun _ => rfl
  | loadRegs x => exact runsElsewhere_loadRegs x s p
  | cls | sys _ | ldI _ | addI _ | ldF _ | ldDTVx _ | ldSTVx _ | ldVxDT _ | rnd _ _ | ldByte _ _ | addByte _ _
  | ldReg _ _ | orReg _ _ | andReg _ _ | xorReg _ _ | addReg _ _ | sub _ _ | shr _ _ | subn _ _ | shl _ _ =>
    exact .of_moved 2 rfl rfl rfl

/-! ## What the correspondence says of the two results -/

namespace ElsewhereFrom

variable {i : Instr} {s t u : State} {p : Word}

theorem sameOutside_pc_stack (h : ElsewhereFrom i s p t u) : sameOutside [.pc, .stack] t u := by
  cases h with
  | jumped => simp [sameOutside]
  | moved d _ => simp [sameOutside]
  | called _ _ => simp [sameOutside]

theorem pc_eq_or_sub_eq (h : ElsewhereFrom i s p t u) : u.pc = t.pc ∨ u.pc - p = t.pc - s.pc := by
  cases h with
  | jumped => exact .inl rfl
  | moved d hpc => right; rw [hpc, State.setPc_pc, add_sub_cancel_left, add_sub_cancel_left]
  | called _ _ => exact .inl rfl

theorem stack_eq_or_call (h : ElsewhereFrom i s p t u) :
    u.stack = t.stack ∨
      (∃ nnn, i = .call nnn) ∧ u.stack = (p + 2) :: s.stack ∧ t.stack = (s.pc + 2) :: s.stack := by
  cases h with
  | jumped => exact .inl rfl
  | moved d _ => exact .inl rfl
  | called hcall hstack => exact .inr ⟨hcall, rfl, hstack⟩

end ElsewhereFrom

/-- Settles O26: the run at `p` corresponds to the run at PC by one of the three ways of `ElsewhereFrom`, and each of
them gives the three clauses. -/
theorem executionIsPositionIndependent : Obligations.ExecutionIsPositionIndependent := by
  intro i s t p hexec
  obtain ⟨t', u, ht, hu, hfrom⟩ := runsElsewhere i s p
  obtain rfl : t' = t := Host.Outcome.next.inj (ht.symm.trans hexec)
  exact ⟨u, hu, hfrom.sameOutside_pc_stack, hfrom.pc_eq_or_sub_eq, hfrom.stack_eq_or_call⟩

end Sys2Proof.Machine
end

section
/-! SYS, the jumps, CALL and RET (40_control_flow.md R90 to R94). -/

namespace Sys2Proof.Machine

/-! ## SYS and the jumps -/

/-- The highest target of JP V0 is 0xFFF + 0xFF (R94). -/
theorem offsetTarget_toNat_le (nnn : Addr12) (b : Byte) : (offsetTarget nnn b).toNat ≤ 0x10FE := by
  have hnnn : nnn.toNat < 4096 := nnn.isLt
  have hb : b.toNat < 256 := b.isLt
  rw [offsetTarget_toNat]
  omega

/-- Settles O30: `advance` writes PC only. -/
theorem sysDoesNothing : Obligations.SysDoesNothing := fun _ _ => rfl

/-- Settles O31: both jumps are one write of PC, and the targets as numbers are `zextAddr_toNat` and
`offsetTarget_toNat`. -/
theorem jumpTargets : Obligations.JumpTargets := fun nnn s =>
  ⟨⟨s.setPc (zextAddr nnn), rfl, zextAddr_toNat nnn, rfl⟩,
    ⟨s.setPc (offsetTarget nnn (s.reg 0)), rfl, offsetTarget_toNat nnn (s.reg 0),
      offsetTarget_toNat_le nnn (s.reg 0), rfl⟩⟩

/-! ## CALL and RET, one equation for each outcome -/

theorem exec_call_of_lt {s : State} (h : s.stack.length < 16) (nnn : Addr12) :
    exec (.call nnn) s = .next ((s.setStack ((s.pc + 2) :: s.stack)).setPc (zextAddr nnn)) := by
  rw [exec_call_eq, push_eq, if_pos h]
  rfl

theorem exec_call_of_ge {s : State} (h : 16 ≤ s.stack.length) (nnn : Addr12) :
    exec (.call nnn) s = raise (.stackFault .overflow) s := by
  rw [exec_call_eq, push_eq, if_neg (Nat.not_lt.2 h)]
  rfl

theorem exec_ret_of_cons {s : State} {w : Word} {rest : List Word} (h : s.stack = w :: rest) :
    exec .ret s = .next ((s.setStack rest).setPc w) := by
  rw [exec_ret_eq, h, pop_cons]
  rfl

theorem exec_ret_of_nil {s : State} (h : s.stack = []) : exec .ret s = raise (.stackFault .underflow) s := by
  rw [exec_ret_eq, h, pop_nil]
  rfl

/-- The frame that CALL and RET share (10_state.md R33). -/
theorem sameOutside_setStack_setPc (s : State) (k : List Word) (w : Word) :
    sameOutside [.pc, .stack] s ((s.setStack k).setPc w) := by
  simp [sameOutside]

/-- Settles O32: with room the new stack and PC are read off the state that CALL leaves; a full stack raises. -/
theorem callPushesReturnAddress : Obligations.CallPushesReturnAddress := fun nnn s =>
  ⟨fun hroom => ⟨_, exec_call_of_lt hroom nnn, zextAddr_toNat nnn, rfl, sameOutside_setStack_setPc s _ _⟩,
    fun hfull => exec_call_of_ge hfull.ge nnn⟩

/-- Settles O33: RET has one outcome for each constructor of the stack, newest entry first. -/
theorem retPopsReturnAddress : Obligations.RetPopsReturnAddress := fun s =>
  ⟨fun w rest hstack => ⟨_, exec_ret_of_cons hstack, rfl, rfl, sameOutside_setStack_setPc s rest w⟩,
    fun hempty => exec_ret_of_nil hempty⟩

end Sys2Proof.Machine
end

section
/-! The conditional skips (41_skips.md R100 to R103). -/

namespace Sys2Proof.Machine

/-- A skip writes PC only (10_state.md R33). -/
theorem sameOutside_skipIf (s : State) (c : Bool) : sameOutside [.pc] s (s.skipIf c) := by
  simp [sameOutside]

/-- An instruction whose meaning is `skipIf` skips exactly on what its tested Bool says (R81). -/
theorem skipResult_of_skipIf {i : Instr} {s : State} {c : Bool} {cond : Prop} (hexec : exec i s = .next (s.skipIf c))
    (hcond : c = true ↔ cond) : skipResult i s cond := by
  refine ⟨s.skipIf c, hexec, fun h => ?_, fun h => ?_, sameOutside_skipIf s c⟩
  · rw [State.skipIf_pc, if_pos (hcond.2 h)]
  · rw [State.skipIf_pc, if_neg (mt hcond.1 h)]

/-- Settles O36: SE and SNE with a byte are `skipIf` on `==` and on `!=`. -/
theorem skipsOnByte : Obligations.SkipsOnByte := fun _ _ _ =>
  ⟨skipResult_of_skipIf rfl beq_iff_eq, skipResult_of_skipIf rfl bne_iff_ne⟩

/-- Settles O37: SE and SNE with a register are `skipIf` on `==` and on `!=`, also where both registers are the same. -/
theorem skipsOnRegister : Obligations.SkipsOnRegister := fun _ _ _ =>
  ⟨skipResult_of_skipIf rfl beq_iff_eq, skipResult_of_skipIf rfl bne_iff_ne⟩

end Sys2Proof.Machine
end

section
/-! Loads, arithmetic, logic, shifts and the index register (42_load_and_arithmetic.md R110 to R122, R125; 45_timers.md
R150; 46_memory_block.md R160). Each instruction here writes one register, one register and then VF, or I, and advances
PC: one lemma for each of the three shapes, and then the number each instruction computes. -/

namespace Sys2Proof.Machine

/-! ## The three shapes of a result -/

section
variable {i : Instr} {s : State} {x : Reg} {b : Byte} {c : Bool} {w : Word} {n m : Nat}

/-- An instruction that writes Vx and advances; VF is an ordinary register here, as a destination too. -/
theorem registerResult_of_setReg (hexec : exec i s = .next (s.setReg x b).advance) (hb : b.toNat = n) :
    registerResult i s x n := by
  refine ⟨_, hexec, ?result, fun r hr => ?others, rfl, ?frame⟩
  case result => rw [State.advance_reg, State.setReg_reg_self, hb]
  case others => rw [State.advance_reg, State.setReg_reg_of_ne hr]
  case frame => simp [sameOutside]

/-- An instruction that writes Vx, then the flag to VF, and advances (R125). -/
theorem flaggedResult_of_setRegAndFlag (hexec : exec i s = .next (s.setRegAndFlag x b c).advance) (hb : b.toNat = n)
    (hc : (flagByte c).toNat = m) : flaggedResult i s x n m := by
  refine ⟨_, hexec, fun hx => ?result, ?flag, fun r hr hvf => ?others, rfl, ?frame⟩
  case result => rw [State.advance_reg, State.setRegAndFlag_reg hx, if_pos rfl, hb]
  case flag => rw [State.advance_reg, State.setRegAndFlag_vf, hc]
  case others => rw [State.advance_reg, State.setRegAndFlag_reg hvf, if_neg hr]
  case frame => simp [sameOutside]

/-- An instruction that writes I and advances. -/
theorem indexResult_of_setI (hexec : exec i s = .next (s.setI w).advance) (hw : w.toNat = n) : indexResult i s n :=
  ⟨_, hexec, hw, rfl, by simp [sameOutside]⟩

end

/-! ## Flags as numbers -/

theorem flagByte_carryOut (a b : Byte) : (flagByte (carryOut a b)).toNat = if a.toNat + b.toNat > 255 then 1 else 0 := by
  simp only [flagByte_toNat, carryOut, decide_eq_true_eq]

theorem flagByte_noBorrow (a b : Byte) : (flagByte (noBorrow a b)).toNat = if a.toNat ≥ b.toNat then 1 else 0 := by
  simp only [flagByte_toNat, noBorrow, decide_eq_true_eq]

/-! ## Results without a flag -/

/-- Settles O39: the three loads write the value they read itself. -/
theorem loadsIntoRegister : Obligations.LoadsIntoRegister := fun _ _ _ _ =>
  ⟨registerResult_of_setReg rfl rfl, registerResult_of_setReg rfl rfl, registerResult_of_setReg rfl rfl⟩

/-- Settles O40: the byte written is `sum8`, and no flag follows it. -/
theorem addByteWraps : Obligations.AddByteWraps := fun _ _ _ => registerResult_of_setReg rfl (sum8_toNat _ _)

/-- Settles O41: the bit operations on bytes are those on their numbers, and no flag follows them. -/
theorem logicOnRegisters : Obligations.LogicOnRegisters := fun _ _ _ =>
  ⟨registerResult_of_setReg rfl (BitVec.toNat_or _ _), registerResult_of_setReg rfl (BitVec.toNat_and _ _),
    registerResult_of_setReg rfl (BitVec.toNat_xor _ _)⟩

/-! ## Results with a flag -/

/-- Settles O42: the sum is `sum8` and the flag `carryOut`, written last. -/
theorem addSetsCarry : Obligations.AddSetsCarry := fun _ _ _ =>
  flaggedResult_of_setRegAndFlag rfl (sum8_toNat _ _) (flagByte_carryOut _ _)

/-- Settles O43: SUB and SUBN are one `diff8` with the flag `noBorrow`, on the operands in either order. -/
theorem subtractionsSetNoBorrow : Obligations.SubtractionsSetNoBorrow := fun _ _ _ =>
  ⟨flaggedResult_of_setRegAndFlag rfl (diff8_toNat _ _) (flagByte_noBorrow _ _),
    flaggedResult_of_setRegAndFlag rfl (diff8_toNat _ _) (flagByte_noBorrow _ _)⟩

/-- Settles O44: both shifts read Vx alone, and the bit they lose is the number's remainder by 2 or its quotient by
128. -/
theorem shiftsSetBitOut : Obligations.ShiftsSetBitOut := fun _ _ _ =>
  ⟨flaggedResult_of_setRegAndFlag rfl (half_toNat _) (flagByte_bitOutRight _),
    flaggedResult_of_setRegAndFlag rfl (double_toNat _) (flagByte_bitOutLeft _)⟩

/-! ## The index register -/

/-- The sum of ADD I, modulo 65536 (R122). -/
theorem add_zextByte_toNat (w : Word) (b : Byte) : (w + zextByte b).toNat = (w.toNat + b.toNat) % 65536 := by
  rw [BitVec.toNat_add, zextByte_toNat]

/-- The glyph of the digit that a byte's low 4 bits select (46_memory_block.md R160). -/
theorem glyphAddr_lowNibble_toNat (b : Byte) : (glyphAddr (lowNibble b)).toNat = 5 * (b.toNat % 16) := by
  rw [glyphAddr_toNat, lowNibble_val]

/-- Settles O46: each of the three writes I once, with an address, a sum or a glyph's address. -/
theorem indexRegisterWrites : Obligations.IndexRegisterWrites := fun _ _ _ =>
  ⟨indexResult_of_setI rfl (zextAddr_toNat _), indexResult_of_setI rfl (add_zextByte_toNat _ _),
    indexResult_of_setI rfl (glyphAddr_lowNibble_toNat _)⟩

end Sys2Proof.Machine
end

section
/-! What an instruction that does not fault leaves alone (10_state.md R33): one frame lemma for each shape of a result,
and then the shape of each instruction. -/

namespace Sys2Proof.Machine

/-- What `r` answers agrees with `s` outside `parts`, unless it is a fault. -/
def AnswersWithin (parts : List Part) (s : State) (r : Result) : Prop :=
  ∀ t, r = .next t → t.halt = none → sameOutside parts s t

section
variable {parts : List Part} {s t : State}

theorem AnswersWithin.of_next (h : sameOutside parts s t) : AnswersWithin parts s (.next t) := by
  intro t' ht _
  obtain rfl := Host.Outcome.next.inj ht
  exact h

/-- A check that fails leaves a halted state, of which the frame says nothing (60_exceptions.md R177). -/
theorem AnswersWithin.of_checkedThen {α : Type} {e : Except Fault α} {k : α → State}
    (h : ∀ a, sameOutside parts s (k a)) : AnswersWithin parts s (checkedThen e s k) := by
  cases e with
  | ok a => exact .of_next (h a)
  | error f =>
    intro t ht hrunning
    obtain rfl := Host.Outcome.next.inj ht
    cases hrunning

end

/-! ## The frames of the shapes -/

section
variable (s : State) (x : Reg) (b : Byte)

theorem sameOutside_refl (parts : List Part) : sameOutside parts s s := by
  simp [sameOutside]

theorem sameOutside_setPc (w : Word) : sameOutside [.pc] s (s.setPc w) := by
  simp [sameOutside]

theorem sameOutside_setReg_advance : sameOutside [.pc, .v] s (s.setReg x b).advance := by
  simp [sameOutside]

theorem sameOutside_setRegAndFlag_advance (c : Bool) :
    sameOutside [.pc, .v] s (s.setRegAndFlag x b c).advance := by
  simp [sameOutside]

theorem sameOutside_setRegsFrom_advance (k : Nat) (bs : List Byte) :
    sameOutside [.pc, .v] s (s.setRegsFrom k bs).advance := by
  rw [State.setRegsFrom_eq]
  simp [sameOutside]

theorem sameOutside_setI_advance (w : Word) : sameOutside [.pc, .index] s (s.setI w).advance := by
  simp [sameOutside]

theorem sameOutside_setMem_advance (m : Memory) : sameOutside [.pc, .memory] s (s.setMem m).advance := by
  simp [sameOutside]

theorem sameOutside_drawSprite (y : Reg) (rows : List Byte) :
    sameOutside [.pc, .v, .display, .events] s (drawSprite x y rows s) := by
  simp [sameOutside]

end

/-! ## Every instruction -/

/-- LD Vx, K waits while no key is down (44_keypad.md R142). -/
theorem exec_ldVxK_of_none {s : State} (h : s.lowestKey = none) (x : Reg) : exec (.ldVxK x) s = .next s := by
  simp only [exec, execLdVxK, h]

/-- LD Vx, K writes the lowest key that is down (44_keypad.md R142). -/
theorem exec_ldVxK_of_some {s : State} {k : Fin 16} (h : s.lowestKey = some k) (x : Reg) :
    exec (.ldVxK x) s = .next (s.setReg x (BitVec.ofNat 8 k.val)).advance := by
  simp only [exec, execLdVxK, h]

theorem exec_ldVxK_answersWithin (x : Reg) (s : State) : AnswersWithin [.pc, .v] s (exec (.ldVxK x) s) := by
  cases h : s.lowestKey with
  | none => rw [exec_ldVxK_of_none h]; exact .of_next (sameOutside_refl s _)
  | some k => rw [exec_ldVxK_of_some h]; exact .of_next (sameOutside_setReg_advance s x _)

theorem exec_answersWithin (i : Instr) (s : State) : AnswersWithin (mayWrite i) s (exec i s) := by
  cases i with
  | sys _ | jp _ | jpV0 _ => exact .of_next (sameOutside_setPc s _)
  | seByte _ _ | sneByte _ _ | seReg _ _ | sneReg _ _ | skp _ | sknp _ => exact .of_next (sameOutside_skipIf s _)
  | call nnn => rw [exec_call_eq]; exact .of_checkedThen fun k => sameOutside_setStack_setPc s k _
  | ret => rw [exec_ret_eq]; exact .of_checkedThen fun a => sameOutside_setStack_setPc s a.2 a.1
  | ldByte x _ | addByte x _ | ldReg x _ | orReg x _ | andReg x _ | xorReg x _ | ldVxDT x =>
    exact .of_next (sameOutside_setReg_advance s x _)
  | addReg x _ | sub x _ | shr x _ | subn x _ | shl x _ =>
    exact .of_next (sameOutside_setRegAndFlag_advance s x _ _)
  | ldVxK x => exact exec_ldVxK_answersWithin x s
  | loadRegs x => rw [exec_loadRegs_eq]; exact .of_checkedThen fun bs => sameOutside_setRegsFrom_advance s 0 bs
  | rnd _ _ | ldDTVx _ | ldSTVx _ | cls => exact .of_next (by simp [sameOutside, mayWrite])
  | ldI _ | addI _ | ldF _ => exact .of_next (sameOutside_setI_advance s _)
  | ldB x => rw [exec_ldB_eq]; exact .of_checkedThen fun m => sameOutside_setMem_advance s m
  | storeRegs x => rw [exec_storeRegs_eq]; exact .of_checkedThen fun m => sameOutside_setMem_advance s m
  | drw x y n => rw [exec_drw_eq]; exact .of_checkedThen fun rows => sameOutside_drawSprite s x y rows

/-- Settles O21: each instruction has one of the shapes above, whose frame is the list `mayWrite` gives it. -/
theorem instructionsWriteOnlyTheirParts : Obligations.InstructionsWriteOnlyTheirParts :=
  fun i s t _ hexec hrunning => exec_answersWithin i s t hexec hrunning

end Sys2Proof.Machine
end

section
/-! CLS and DRW (43_display.md R130, R131). -/

namespace Sys2Proof.Machine

/-- Settles O48: CLS writes `Framebuffer.clear` and shows that same framebuffer. -/
theorem clsClearsScreen : Obligations.ClsClearsScreen := fun _ =>
  ⟨_, rfl, Framebuffer.pixel_clear, rfl, rfl, by simp [sameOutside]⟩

/-! ## The rows that DRW reads -/

/-- The bytes that `DRW Vx, Vy, n` reads, from I upward (R131). -/
def spriteRows (s : State) (n : Height) : List Byte := (List.range n.val).map fun r => s.mem.peek (s.i.toNat + r)

section
variable {s : State} {n : Height}

@[simp] theorem spriteRows_length : (spriteRows s n).length = n.val := by
  simp [spriteRows]

theorem spriteRows_getD {r : Nat} (h : r < n.val) : (spriteRows s n).getD r 0 = s.mem.peek (s.i.toNat + r) := by
  simp [spriteRows, h]

theorem exec_drw_of_fits (h : n.val = 0 ∨ s.i.toNat + n.val - 1 ≤ 4095) (x y : Reg) :
    exec (.drw x y n) s = .next (drawSprite x y (spriteRows s n) s) := by
  have hsize : Config.memSize = 4096 := rfl
  rw [exec_drw_eq, readBlock_eq, if_pos (by omega)]
  rfl

theorem exec_drw_of_not_fits (h : n.val ≠ 0 ∧ s.i.toNat + n.val - 1 > 4095) (x y : Reg) :
    exec (.drw x y n) s = raise (.outOfBounds (max s.i.toNat 4096)) s := by
  have hsize : Config.memSize = 4096 := rfl
  rw [exec_drw_eq, readBlock_eq, if_neg (by omega)]
  rfl

end

/-! ## The sprite on the screen -/

section
variable (x y : Reg) (n : Height) (s : State)

/-- The compositor's cover of the rows read is the sprite of R131. -/
theorem rowsCover_spriteRows (px : Fin 64) (py : Fin 32) :
    rowsCover (originX (s.reg x)) (originY (s.reg y)) (spriteRows s n) px py ↔ spriteCovers s x y n px py := by
  constructor
  · rintro ⟨r, hr, hy, c, hc, hbit, hx⟩
    rw [spriteRows_length] at hr
    rw [spriteRows_getD hr] at hbit
    exact ⟨r, c, hr, hc, hbit, hx, hy⟩
  · rintro ⟨r, c, hr, hc, hbit, hx, hy⟩
    exact ⟨r, by rwa [spriteRows_length], hy, c, hc, by rwa [spriteRows_getD hr], hx⟩

/-- Drawing the sprite: its pixels are turned over and no others, and the collision says that one of them was lit. A
sprite has fewer than 32 rows, so no pixel is turned over twice. -/
theorem drawRows_spriteRows :
    let c := drawRows (originX (s.reg x)) (originY (s.reg y)) (spriteRows s n) (s.fb, false)
    (∀ px py, (spriteCovers s x y n px py → c.1.pixel px py = !s.fb.pixel px py) ∧
      (¬spriteCovers s x y n px py → c.1.pixel px py = s.fb.pixel px py)) ∧
    (c.2 = true ↔ ∃ px py, spriteCovers s x y n px py ∧ s.fb.pixel px py = true) := by
  have hrows : (spriteRows s n).length ≤ 32 := by rw [spriteRows_length]; omega
  simpa [rowsCover_spriteRows] using
    drawRows_spec (originX (s.reg x)) (originY (s.reg y)) (spriteRows s n) (s.fb, false) hrows

variable {x y n s} {px : Fin 64} {py : Fin 32}

theorem drawSprite_pixel_of_covers (h : spriteCovers s x y n px py) :
    (drawSprite x y (spriteRows s n) s).fb.pixel px py = !s.fb.pixel px py :=
  ((drawRows_spriteRows x y n s).1 px py).1 h

theorem drawSprite_pixel_of_not_covers (h : ¬spriteCovers s x y n px py) :
    (drawSprite x y (spriteRows s n) s).fb.pixel px py = s.fb.pixel px py :=
  ((drawRows_spriteRows x y n s).1 px py).2 h

theorem drawSprite_vf_of_collision (h : ∃ px py, spriteCovers s x y n px py ∧ s.fb.pixel px py = true) :
    (drawSprite x y (spriteRows s n) s).reg vf = 1 := by
  rw [drawSprite_vf, (drawRows_spriteRows x y n s).2.2 h]
  rfl

theorem drawSprite_vf_of_no_collision (h : ∀ px py, spriteCovers s x y n px py → s.fb.pixel px py = false) :
    (drawSprite x y (spriteRows s n) s).reg vf = 0 := by
  have hnone : ¬∃ px py, spriteCovers s x y n px py ∧ s.fb.pixel px py = true := by
    rintro ⟨px, py, hcovers, hlit⟩
    rw [h px py hcovers] at hlit
    cases hlit
  rw [drawSprite_vf, Bool.eq_false_iff.2 (mt (drawRows_spriteRows x y n s).2.1 hnone)]
  rfl

end

/-- Settles O49: DRW reads all its rows or faults; with them it leaves `drawSprite`, whose pixels and VF the lemmas above
give. -/
theorem drwXorsSprite : Obligations.DrwXorsSprite := by
  intro x y n s
  refine ⟨fun hfits => ?_, fun hout => exec_drw_of_not_fits hout x y⟩
  exact ⟨_, exec_drw_of_fits hfits x y, fun _ _ => drawSprite_pixel_of_covers,
    fun _ _ => drawSprite_pixel_of_not_covers, drawSprite_vf_of_collision, drawSprite_vf_of_no_collision,
    fun _ => drawSprite_reg x y _ s, drawSprite_events x y _ s, rfl, by simp [sameOutside]⟩

end Sys2Proof.Machine
end

section
/-! One instruction run with two framebuffers (43_display.md R133). -/

namespace Sys2Proof.Machine

/-- `i` runs from `s` and from `s` with another framebuffer, and the two results differ in the framebuffer only. -/
def IgnoresDisplay (i : Instr) (s : State) (f : Framebuffer) : Prop :=
  ∃ t g, exec i s = .next t ∧ exec i (s.setFb f) = .next (t.setFb g)

/-- Loading a block of registers does not look at the framebuffer (46_memory_block.md R163). -/
theorem State.setFb_setRegsFrom (bs : List Byte) (s : State) (f : Framebuffer) (k : Nat) :
    (s.setFb f).setRegsFrom k bs = (s.setRegsFrom k bs).setFb f := by
  induction bs generalizing s k with
  | nil => rfl
  | cons b bs ih => exact ih (s.setReg (Fin.ofNat 16 k) b) (k + 1)

/-- A check and an effect that do not look at the framebuffer. -/
theorem IgnoresDisplay.of_checked {i : Instr} {s : State} {f : Framebuffer} {α : Type} {e : Except Fault α}
    {k : α → State} (hs : exec i s = checkedThen e s k)
    (hf : exec i (s.setFb f) = checkedThen e (s.setFb f) fun a => (k a).setFb f) : IgnoresDisplay i s f := by
  cases e with
  | error r => exact ⟨s.setHalt (some r), f, hs, hf⟩
  | ok a => exact ⟨k a, f, hs, hf⟩

theorem ignoresDisplay_ldVxK (x : Reg) (s : State) (f : Framebuffer) : IgnoresDisplay (.ldVxK x) s f := by
  cases h : s.lowestKey with
  | none => exact ⟨_, f, exec_ldVxK_of_none h x, exec_ldVxK_of_none (s := s.setFb f) h x⟩
  | some k => exact ⟨_, f, exec_ldVxK_of_some h x, exec_ldVxK_of_some (s := s.setFb f) h x⟩

theorem ignoresDisplay_loadRegs (x : Reg) (s : State) (f : Framebuffer) : IgnoresDisplay (.loadRegs x) s f := by
  refine .of_checked (exec_loadRegs_eq x s) ?_
  rw [exec_loadRegs_eq]
  simp only [State.setFb_setRegsFrom]
  rfl

/-- Every instruction but DRW; CLS writes the framebuffer without looking at it. -/
theorem ignoresDisplay_of_ne_drw {i : Instr} (hi : ∀ x y n, i ≠ .drw x y n) (s : State) (f : Framebuffer) :
    IgnoresDisplay i s f := by
  cases i with
  | drw x y n => exact absurd rfl (hi x y n)
  | cls => exact ⟨_, Framebuffer.clear, rfl, rfl⟩
  | ret => exact .of_checked (exec_ret_eq s) (exec_ret_eq (s.setFb f))
  | call nnn => exact .of_checked (exec_call_eq nnn s) (exec_call_eq nnn (s.setFb f))
  | ldVxK x => exact ignoresDisplay_ldVxK x s f
  | ldB x => exact .of_checked (exec_ldB_eq x s) (exec_ldB_eq x (s.setFb f))
  | storeRegs x => exact .of_checked (exec_storeRegs_eq x s) (exec_storeRegs_eq x (s.setFb f))
  | loadRegs x => exact ignoresDisplay_loadRegs x s f
  | sys _ | jp _ | jpV0 _ | seByte _ _ | sneByte _ _ | seReg _ _ | sneReg _ _ | skp _ | sknp _ | ldI _ | addI _ | ldF _
  | ldDTVx _ | ldSTVx _ | ldVxDT _ | rnd _ _ | ldByte _ _ | addByte _ _ | ldReg _ _ | orReg _ _ | andReg _ _
  | xorReg _ _ | addReg _ _ | sub _ _ | shr _ _ | subn _ _ | shl _ _ =>
    exact ⟨_, f, rfl, rfl⟩

/-- The same sprite drawn on two framebuffers: only VF, of the registers, may differ (R131, R133). -/
theorem drawSprite_setFb_sameOutside (x y : Reg) (rows : List Byte) (s : State) (f : Framebuffer) :
    sameOutside [.v, .display, .events] (drawSprite x y rows s) (drawSprite x y rows (s.setFb f)) ∧
      ∀ r, r ≠ vf → (drawSprite x y rows (s.setFb f)).reg r = (drawSprite x y rows s).reg r :=
  ⟨by simp [sameOutside], fun r hr => by rw [drawSprite_reg x y rows _ hr, drawSprite_reg x y rows s hr]; rfl⟩

/-- Whether DRW faults does not depend on the framebuffer. -/
theorem exec_drw_setFb (x y : Reg) (n : Height) (s : State) (f : Framebuffer) :
    ∃ t u, exec (.drw x y n) s = .next t ∧ exec (.drw x y n) (s.setFb f) = .next u ∧
      sameOutside [.v, .display, .events] t u ∧ ∀ r, r ≠ vf → u.reg r = t.reg r := by
  have hs := exec_drw_eq x y n s
  have hf := exec_drw_eq x y n (s.setFb f)
  rw [State.setFb_mem, State.setFb_i] at hf
  cases h : readBlock s.mem s.i.toNat n.val with
  | error e => rw [h] at hs hf; exact ⟨_, _, hs, hf, by simp [sameOutside], fun _ _ => rfl⟩
  | ok rows => rw [h] at hs hf; exact ⟨_, _, hs, hf, drawSprite_setFb_sameOutside x y rows s f⟩

/-- Settles O25: DRW alone looks at the framebuffer, and what it sees goes to VF; every other instruction's two results
differ in the framebuffer only. -/
theorem displayShowsOnlyAsCollision : Obligations.DisplayShowsOnlyAsCollision := by
  intro i s t f hexec
  by_cases hi : ∃ x y n, i = .drw x y n
  · obtain ⟨x, y, n, rfl⟩ := hi
    obtain ⟨t', u, ht, hu, hsame, hregs⟩ := exec_drw_setFb x y n s f
    obtain rfl : t' = t := Host.Outcome.next.inj (ht.symm.trans hexec)
    exact ⟨u, hu, hsame, hregs, fun hne => absurd rfl (hne x y n)⟩
  · have hne : ∀ x y n, i ≠ .drw x y n := fun x y n h => hi ⟨x, y, n, h⟩
    obtain ⟨t', g, ht, hu⟩ := ignoresDisplay_of_ne_drw hne s f
    obtain rfl : t' = t := Host.Outcome.next.inj (ht.symm.trans hexec)
    exact ⟨t'.setFb g, hu, by simp [sameOutside], fun _ _ => rfl, fun _ => rfl⟩

end Sys2Proof.Machine
end

section
/-! The keypad instructions (44_keypad.md R140 to R143). -/

namespace Sys2Proof.Machine

/-- The key that SKP and SKNP test is a bit of the keypad, by the low 4 bits of Vx (R143). -/
theorem keyDown_lowNibble (s : State) (b : Byte) : s.keyDown (lowNibble b) = s.key.getLsbD (b.toNat % 16) := rfl

/-- Settles O38: SKP and SKNP are `skipIf` on the selected key and on its negation. -/
theorem skipsOnKey : Obligations.SkipsOnKey := fun x s =>
  ⟨skipResult_of_skipIf rfl (by rw [keyDown_lowNibble]),
    skipResult_of_skipIf rfl (by rw [keyDown_lowNibble, Bool.not_eq_true'])⟩

/-- A key's number fits in a register. -/
theorem keyByte_toNat (k : Fin 16) : (BitVec.ofNat 8 k.val).toNat = k.val :=
  Nat.mod_eq_of_lt (Nat.lt_trans k.isLt (by decide))

/-- Settles O51: the two cases of the lowest key that is down. -/
theorem keyWait : Obligations.KeyWait := fun x _ =>
  ⟨fun k hdown hlowest =>
      registerResult_of_setReg (exec_ldVxK_of_some (lowestKey_eq_some hdown hlowest) x) (keyByte_toNat k),
    fun hnone => exec_ldVxK_of_none (lowestKey_eq_none hnone) x⟩

end Sys2Proof.Machine
end

section
/-! What each agent's action leaves alone (10_state.md R33). A step is the engine's: the frame of its instruction, or of
a fault, lies within the parts that a step may change. -/

namespace Sys2Proof.Machine

theorem sameOutside_mono {parts parts' : List Part} {s t : State} (hsub : parts ⊆ parts')
    (h : sameOutside parts s t) : sameOutside parts' s t := by
  have hout {p : Part} : p ∉ parts' → p ∉ parts := mt (@hsub p)
  obtain ⟨hv, hi, hpc, hstack, hdt, hst, hmem, hfb, hkey, hhalt, hstrict, hphase, hevents, hdraws, hagenda⟩ := h
  exact ⟨hv ∘ hout, hi ∘ hout, hpc ∘ hout, hstack ∘ hout, hdt ∘ hout, hst ∘ hout, hmem ∘ hout, hfb ∘ hout,
    hkey ∘ hout, hhalt ∘ hout, hstrict ∘ hout, hphase ∘ hout, hevents ∘ hout, hdraws ∘ hout, hagenda ∘ hout⟩

/-! ## One step of the engine -/

/-- A check raises, or the effect after it leaves the halt status as that effect does. -/
theorem checkedThen_raises_or_keeps_halt {α : Type} {e : Except Fault α} {s : State} {k : α → State}
    (hk : ∀ a, (k a).halt = s.halt) :
    (∃ f, checkedThen e s k = raise f s) ∨ ∃ t, checkedThen e s k = .next t ∧ t.halt = s.halt := by
  cases e with
  | error f => exact .inl ⟨f, rfl⟩
  | ok a => exact .inr ⟨k a, rfl, hk a⟩

/-- The halt status is written by fault entry only (60_exceptions.md R177). -/
theorem exec_raises_or_keeps_halt (i : Instr) (s : State) :
    (∃ f, exec i s = raise f s) ∨ ∃ t, exec i s = .next t ∧ t.halt = s.halt := by
  cases i with
  | ret => rw [exec_ret_eq]; exact checkedThen_raises_or_keeps_halt fun _ => rfl
  | call nnn => rw [exec_call_eq]; exact checkedThen_raises_or_keeps_halt fun _ => rfl
  | drw x y n => rw [exec_drw_eq]; exact checkedThen_raises_or_keeps_halt fun _ => rfl
  | ldB x => rw [exec_ldB_eq]; exact checkedThen_raises_or_keeps_halt fun _ => rfl
  | storeRegs x => rw [exec_storeRegs_eq]; exact checkedThen_raises_or_keeps_halt fun _ => rfl
  | loadRegs x =>
    rw [exec_loadRegs_eq]
    exact checkedThen_raises_or_keeps_halt fun bs => by rw [State.setRegsFrom_eq]; rfl
  | ldVxK x =>
    cases h : s.lowestKey with
    | none => exact .inr ⟨s, exec_ldVxK_of_none h x, rfl⟩
    | some k => exact .inr ⟨_, exec_ldVxK_of_some h x, rfl⟩
  | cls | sys _ | jp _ | jpV0 _ | seByte _ _ | sneByte _ _ | seReg _ _ | sneReg _ _ | skp _ | sknp _ | ldI _ | addI _
  | ldF _ | ldDTVx _ | ldSTVx _ | ldVxDT _ | rnd _ _ | ldByte _ _ | addByte _ _ | ldReg _ _ | orReg _ _ | andReg _ _
  | xorReg _ _ | addReg _ _ | sub _ _ | shr _ _ | subn _ _ | shl _ _ =>
    exact .inr ⟨_, rfl, rfl⟩

/-- What an instruction may write, the engine may. -/
theorem mayWrite_subset_step (i : Instr) : mayWrite i ⊆ agentMayWrite .step := by
  cases i <;> simp [mayWrite, agentMayWrite]

section
variable {s t : State}

/-- Fault entry lies within a step's frame. -/
theorem raise_sameOutside_step {f : Fault} (h : raise f s = .next t) : sameOutside (agentMayWrite .step) s t := by
  obtain rfl := Host.Outcome.next.inj h
  simp [sameOutside, agentMayWrite]

theorem exec_sameOutside_step {i : Instr} (hs : s.halt = none) (h : exec i s = .next t) :
    sameOutside (agentMayWrite .step) s t := by
  obtain ⟨f, hraise⟩ | ⟨u, hu, hhalt⟩ := exec_raises_or_keeps_halt i s
  · exact raise_sameOutside_step (hraise.symm.trans h)
  · obtain rfl : u = t := Host.Outcome.next.inj (hu.symm.trans h)
    exact sameOutside_mono (mayWrite_subset_step i) (exec_answersWithin i s u h (hhalt.trans hs))

theorem execUnknown_sameOutside_step {w : Word} (h : execUnknown w s = .next t) :
    sameOutside (agentMayWrite .step) s t := by
  unfold execUnknown at h
  split at h
  · exact raise_sameOutside_step h
  · obtain rfl := Host.Outcome.next.inj h
    simp [sameOutside, agentMayWrite]

theorem cycle_sameOutside_step (h : cycle s = .next t) : sameOutside (agentMayWrite .step) s t := by
  cases hs : s.halt with
  | some f =>
    rw [cycle_of_halted hs] at h
    obtain rfl := Host.Outcome.next.inj h
    exact sameOutside_refl s _
  | none =>
    rw [cycle_of_running hs] at h
    cases hf : fetch s with
    | error f => rw [hf] at h; exact raise_sameOutside_step h
    | ok w =>
      simp only [hf] at h
      cases hd : decode w with
      | instr i => rw [hd] at h; exact exec_sameOutside_step hs h
      | unknown w' => rw [hd] at h; exact execUnknown_sameOutside_step h

/-- The end of the boot lies within a step's frame. -/
theorem sameOutside_step_of_beginRun (h : sameOutside (agentMayWrite .step) s.beginRun t) :
    sameOutside (agentMayWrite .step) s t := by
  rw [beginRun_eq] at h
  simpa [sameOutside, agentMayWrite] using h

/-! ## The other agents' actions -/

theorem tick_sameOutside (s : State) : sameOutside [.delay, .sound] s (tick s) := by
  cases h : s.halt with
  | some f => rw [tick_of_halted h]; exact sameOutside_refl s _
  | none => rw [tick_of_running h]; simp [sameOutside]

/-- A load writes memory only (70_reset_and_hazards.md R201). -/
theorem load_eq_setMem {bytes : List Byte} {origin : Nat} (h : load s bytes origin = .next t) :
    ∃ m, t = s.setMem m := by
  unfold load at h
  split at h
  · cases hw : writeBlock s.mem origin bytes with
    | error f => rw [hw] at h; cases h
    | ok m => rw [hw] at h; exact ⟨m, (Host.Outcome.next.inj h).symm⟩
  · cases h

/-- A load as an action: memory is written, or the failure is signalled (R34, R201). -/
theorem loadAction_cases {bytes : List Byte} {origin : Nat} (h : loadAction s bytes origin = .next t) :
    (∃ m, t = s.setMem m) ∨ t = s.emit .loadError := by
  unfold loadAction at h
  cases hl : load s bytes origin with
  | next u =>
    rw [hl] at h
    obtain rfl := Host.Outcome.next.inj h
    exact .inl (load_eq_setMem hl)
  | fault f => rw [hl] at h; exact .inr (Host.Outcome.next.inj h).symm
  | refused r => rw [hl] at h; cases h

theorem act_sameOutside {a : Action} (h : act a s = .next t) : sameOutside (agentMayWrite a) s t := by
  cases a with
  | step => exact sameOutside_step_of_beginRun (cycle_sameOutside_step h)
  | tick =>
    obtain rfl := Host.Outcome.next.inj h
    exact tick_sameOutside s
  | setKeys _ | setStrict _ | reset =>
    obtain rfl := Host.Outcome.next.inj h
    simp [sameOutside, agentMayWrite, resetAction]
  | load bytes origin =>
    obtain ⟨m, rfl⟩ | rfl := loadAction_cases h <;> simp [sameOutside, agentMayWrite]

/-- An action that is not offered changes nothing at all (assumption 14). -/
theorem perform_sameOutside {a : Action} (h : perform a s = .next t) : sameOutside (agentMayWrite a) s t := by
  cases ho : offered a s with
  | true => exact act_sameOutside ((perform_of_offered ho).symm.trans h)
  | false =>
    rw [perform_of_not_offered ho] at h
    obtain rfl := Host.Outcome.next.inj h
    exact sameOutside_refl s _

end

/-- Settles O20: an action that is offered keeps to its agent's parts, and a keypad write is always offered. -/
theorem agentsWriteOnlyTheirOwn : Obligations.AgentsWriteOnlyTheirOwn :=
  ⟨fun _ _ _ h => perform_sameOutside h, fun k s => ⟨s.setKey k, perform_setKeys k s, rfl⟩⟩

end Sys2Proof.Machine
end

section
/-! The timer writes and the tone (45_timers.md R151, R152). -/

namespace Sys2Proof.Machine

/-- The tone sounds exactly while ST is not 0 (60_exceptions.md R182). -/
@[simp] theorem tone_eq_true_iff (s : State) : tone s = true ↔ s.st.toNat > 0 := decide_eq_true_iff

theorem sameOutside_setDt_advance (s : State) (b : Byte) : sameOutside [.delay, .pc] s (s.setDt b).advance := by
  simp [sameOutside]

theorem sameOutside_setSt_advance (s : State) (b : Byte) : sameOutside [.sound, .pc] s (s.setSt b).advance := by
  simp [sameOutside]

/-- `tone` is computed from ST, so it follows the write at once (R152). -/
theorem tone_setSt_advance (s : State) (b : Byte) : tone (s.setSt b).advance = true ↔ b.toNat > 0 := by
  rw [tone_eq_true_iff, State.advance_st, State.setSt_st]

/-- Settles O52: each of the two writes its own timer and advances, and `tone` is read off the new ST. -/
theorem timerWrites : Obligations.TimerWrites := fun x s =>
  ⟨⟨(s.setDt (s.reg x)).advance, rfl, rfl, rfl, sameOutside_setDt_advance s (s.reg x)⟩,
    ⟨(s.setSt (s.reg x)).advance, rfl, rfl, rfl, tone_setSt_advance s (s.reg x), sameOutside_setSt_advance s (s.reg x)⟩⟩

end Sys2Proof.Machine
end

section
/-! The block moves (46_memory_block.md R161 to R163). LD B and LD [I] are one checked store from I; LD Vx, [I] is one
checked read. -/

namespace Sys2Proof.Machine

/-! ## A checked store -/

section
variable {m : Memory} {a : Nat} {bs : List Byte}

/-- A store that fits (R161, R162), byte by byte: the bytes stored, and what is outside the span. -/
theorem storeBlock_of_fits (hwf : m.wf = true) (hb : bs ≠ []) (hfits : a + bs.length ≤ 4096) :
    ∃ m', storeBlock m a bs = .ok m' ∧ m'.wf = true ∧ (∀ k, k < bs.length → m'.peek (a + k) = bs.getD k 0) ∧
      ∀ q, q < a ∨ a + bs.length ≤ q → m'.peek q = m.peek q := by
  obtain ⟨-, m', hstore, hwf', hpeek⟩ | ⟨hover, -⟩ := storeBlock_cases hwf a hb
  · refine ⟨m', hstore, hwf', fun k hk => ?_, fun q hq => ?_⟩
    · rw [hpeek, if_pos (by omega), Nat.add_sub_cancel_left]
    · rw [hpeek, if_neg (by omega)]
  · exact absurd hover (Nat.not_lt.2 hfits)

/-- A store that does not fit names the smallest address above 4095, whatever the memory's form (R171). -/
theorem storeBlock_of_not_fits (hb : bs ≠ []) (hover : 4096 < a + bs.length) :
    storeBlock m a bs = .error (.outOfBounds (max a 4096)) := by
  obtain ⟨hfits, -⟩ | ⟨-, hstore⟩ := storeBlock_answers m a hb
  · exact absurd hover (Nat.not_lt.2 hfits)
  · exact hstore

end

theorem exec_ldB_of_not_fits {s : State} (h : s.i.toNat + 2 > 4095) (x : Reg) :
    exec (.ldB x) s = raise (.outOfBounds (max s.i.toNat 4096)) s := by
  rw [exec_ldB_eq, storeBlock_of_not_fits (bcdDigits_ne_nil _) (by rw [bcdDigits_length]; omega)]
  rfl

theorem exec_storeRegs_of_not_fits {s : State} {x : Reg} (h : s.i.toNat + x.val > 4095) :
    exec (.storeRegs x) s = raise (.outOfBounds (max s.i.toNat 4096)) s := by
  rw [exec_storeRegs_eq, storeBlock_of_not_fits (regsUpTo_ne_nil s x) (by rw [regsUpTo_length]; omega)]
  rfl

/-- The three digits of a byte as numbers (R161). -/
theorem bcdDigits_getD_toNat (b : Byte) :
    ((bcdDigits b).getD 0 0).toNat = b.toNat / 100 ∧ ((bcdDigits b).getD 1 0).toNat = b.toNat / 10 % 10 ∧
      ((bcdDigits b).getD 2 0).toNat = b.toNat % 10 := by
  have hb := b.isLt
  simp only [bcdDigits, List.getD_cons_zero, List.getD_cons_succ, BitVec.toNat_ofNat]
  omega

/-- Settles O55: the store of the three digits fits or faults as a whole. -/
theorem bcdStore : Obligations.BcdStore := by
  intro x s hwf
  refine ⟨fun hfits => ?_, fun hover => exec_ldB_of_not_fits hover x⟩
  have hlen := bcdDigits_length (s.reg x)
  obtain ⟨hhundreds, htens, hones⟩ := bcdDigits_getD_toNat (s.reg x)
  obtain ⟨m, hstore, hwf', hin, hout⟩ :=
    storeBlock_of_fits hwf (bcdDigits_ne_nil (s.reg x)) (a := s.i.toNat) (by omega)
  have hexec : exec (.ldB x) s = .next (s.setMem m).advance := by rw [exec_ldB_eq, hstore]; rfl
  refine ⟨_, hexec, ?_, ?_, ?_, fun q hq => hout q (by omega), hwf', rfl, by simp [sameOutside]⟩
  · exact (congrArg BitVec.toNat (hin 0 (by omega))).trans hhundreds
  · exact (congrArg BitVec.toNat (hin 1 (by omega))).trans htens
  · exact (congrArg BitVec.toNat (hin 2 (by omega))).trans hones

/-- Settles O56: the store of V0 to Vx fits or faults as a whole. -/
theorem blockStore : Obligations.BlockStore := by
  intro x s hwf
  refine ⟨fun hfits => ?_, exec_storeRegs_of_not_fits⟩
  have hlen := regsUpTo_length s x
  obtain ⟨m, hstore, hwf', hin, hout⟩ :=
    storeBlock_of_fits hwf (regsUpTo_ne_nil s x) (a := s.i.toNat) (by omega)
  have hexec : exec (.storeRegs x) s = .next (s.setMem m).advance := by rw [exec_storeRegs_eq, hstore]; rfl
  refine ⟨_, hexec, fun k hk => ?_, fun q hq => hout q (by omega), hwf', rfl, by simp [sameOutside]⟩
  exact (hin k.val (by rw [hlen]; exact Nat.lt_succ_of_le hk)).trans (regsUpTo_getD s x k hk)

/-! ## The block that is loaded -/

/-- The bytes that LD Vx, [I] reads, from I upward (R163). -/
def loadedBytes (s : State) (x : Reg) : List Byte := (List.range (blockCount x)).map fun k => s.mem.peek (s.i.toNat + k)

section
variable {s : State} {x : Reg}

@[simp] theorem loadedBytes_length : (loadedBytes s x).length = x.val + 1 := by
  simp [loadedBytes, blockCount]

theorem loadedBytes_getD {k : Nat} (h : k ≤ x.val) : (loadedBytes s x).getD k 0 = s.mem.peek (s.i.toNat + k) := by
  simp [loadedBytes, blockCount, Nat.lt_succ_of_le h]

/-- The registers after the load: Vx and those below it are bytes of memory, those above are kept (R163). -/
theorem setRegsFrom_loadedBytes_reg (k : Reg) :
    (s.setRegsFrom 0 (loadedBytes s x)).reg k =
      if k.val ≤ x.val then s.mem.peek (s.i.toNat + k.val) else s.reg k := by
  rw [State.setRegsFrom_reg _ _ _ (by rw [loadedBytes_length]; omega), loadedBytes_length]
  by_cases hk : k.val ≤ x.val
  · rw [if_pos hk, if_pos (by omega), Nat.sub_zero, loadedBytes_getD hk]
  · rw [if_neg hk, if_neg (by omega)]

theorem exec_loadRegs_of_fits (h : s.i.toNat + x.val ≤ 4095) :
    exec (.loadRegs x) s = .next (s.setRegsFrom 0 (loadedBytes s x)).advance := by
  have hsize : Config.memSize = 4096 := rfl
  rw [exec_loadRegs_eq, readBlock_eq, if_pos (by rw [blockCount]; omega)]
  rfl

theorem exec_loadRegs_of_not_fits (h : s.i.toNat + x.val > 4095) :
    exec (.loadRegs x) s = raise (.outOfBounds (max s.i.toNat 4096)) s := by
  have hsize : Config.memSize = 4096 := rfl
  rw [exec_loadRegs_eq, readBlock_eq, if_neg (by rw [blockCount]; omega)]
  rfl

end

/-- Settles O57: the read of all the bytes comes before the first register write, and fits or faults as a whole. -/
theorem blockLoad : Obligations.BlockLoad := by
  intro x s
  refine ⟨fun hfits => ⟨_, exec_loadRegs_of_fits hfits, fun k hk => ?_, fun k hk => ?_, ?_, ?_⟩,
    exec_loadRegs_of_not_fits⟩
  · exact (setRegsFrom_loadedBytes_reg k).trans (if_pos hk)
  · exact (setRegsFrom_loadedBytes_reg k).trans (if_neg (Nat.not_le.2 hk))
  · rw [State.advance_pc, State.setRegsFrom_pc]
  · exact sameOutside_mono (by simp) (sameOutside_setRegsFrom_advance s 0 (loadedBytes s x))

end Sys2Proof.Machine
end

section
/-! Faults and the halt (60_exceptions.md R173, R177, R178): a step faults by the one fault entry or leaves the halt
status alone, and a halted block takes keypad writes only. -/

namespace Sys2Proof.Machine

/-! ## An Unknown opcode -/

section
variable {s : State}

theorem execUnknown_of_strict (h : s.strict = true) (w : Word) : execUnknown w s = raise (.unknownOpcode w) s := by
  rw [execUnknown, if_pos h]

theorem execUnknown_of_permissive (h : s.strict = false) (w : Word) :
    execUnknown w s = .next (s.emit (.warn w)).advance := by
  rw [execUnknown, if_neg (by simp [h])]

/-- A running engine whose bytes at PC decode to Unknown applies the policy (30_encoding.md R80). -/
theorem cycle_of_unknown {w : Word} (h : s.halt = none) (hp : s.pc.toNat + 1 < Config.memSize)
    (hw : decode (wordOfBytes (s.mem.peek s.pc.toNat) (s.mem.peek (s.pc.toNat + 1))) = .unknown w) :
    cycle s = execUnknown w s := by
  simp only [cycle_of_running h, fetch_eq, if_pos hp, hw, execDecoded]

/-- A running engine that cannot fetch faults (30_encoding.md R80, 60_exceptions.md R171). -/
theorem cycle_of_not_fetchable (h : s.halt = none) (hp : ¬s.pc.toNat + 1 < Config.memSize) :
    cycle s = raise (.outOfBounds (max s.pc.toNat Config.memSize)) s := by
  simp only [cycle_of_running h, fetch_eq, if_neg hp]

theorem sameOutside_emit_advance (e : Event) : sameOutside [.pc, .events] s (s.emit e).advance := by
  simp [sameOutside]

end

/-- Settles O12: the engine answers as `execUnknown` does, and that by STRICT. -/
theorem unknownOpcodePolicy : Obligations.UnknownOpcodePolicy := by
  intro s w hrunning hpc hword hdecode
  have hfetch : s.pc.toNat + 1 < Config.memSize := Nat.lt_of_le_of_lt (Nat.succ_le_succ hpc) (by decide)
  have hcycle : cycle s = execUnknown w s := cycle_of_unknown hrunning hfetch (hword ▸ hdecode)
  refine ⟨fun hstrict => ?_, fun hpermissive => ?_⟩
  · rw [hcycle, execUnknown_of_strict hstrict, raise_eq]
  · exact ⟨_, hcycle.trans (execUnknown_of_permissive hpermissive w), rfl, rfl, sameOutside_emit_advance _⟩

/-! ## A fault -/

theorem execUnknown_raises_or_keeps_halt (w : Word) (s : State) :
    (∃ f, execUnknown w s = raise f s) ∨ ∃ t, execUnknown w s = .next t ∧ t.halt = s.halt := by
  cases h : s.strict with
  | true => exact .inl ⟨_, execUnknown_of_strict h w⟩
  | false => exact .inr ⟨_, execUnknown_of_permissive h w, rfl⟩

/-- Fault entry is the only way the engine's cycle writes the halt status (60_exceptions.md R177). -/
theorem cycle_raises_or_keeps_halt {s : State} (h : s.halt = none) :
    (∃ f, cycle s = raise f s) ∨ ∃ t, cycle s = .next t ∧ t.halt = s.halt := by
  by_cases hp : s.pc.toNat + 1 < Config.memSize
  · cases hd : decode (wordOfBytes (s.mem.peek s.pc.toNat) (s.mem.peek (s.pc.toNat + 1))) with
    | instr i => rw [cycle_of_instr h hp hd]; exact exec_raises_or_keeps_halt i s
    | unknown w => rw [cycle_of_unknown h hp hd]; exact execUnknown_raises_or_keeps_halt w s
  · exact .inl ⟨_, cycle_of_not_fetchable h hp⟩

/-- Settles O14: a cycle that leaves the halt status set went through fault entry. -/
theorem faultChangesOnlyHalt : Obligations.FaultChangesOnlyHalt := by
  intro s t hrunning hcycle hhalted
  obtain ⟨f, hraise⟩ | ⟨u, hu, hkept⟩ := cycle_raises_or_keeps_halt hrunning
  · obtain rfl := Host.Outcome.next.inj (hraise.symm.trans hcycle)
    rfl
  · obtain rfl := Host.Outcome.next.inj (hu.symm.trans hcycle)
    exact absurd (hkept.trans hrunning) hhalted

/-! ## A halted block -/

section
variable {s : State} {f : Fault}

/-- While halted a step or a tick does nothing, and a keypad write does what it always does (R178). -/
theorem perform_of_halted {a : Action} (h : s.halt = some f)
    (ha : a = .step ∨ a = .tick ∨ ∃ k, a = .setKeys k) :
    perform a s = .next (s.setKey (keysAfter s.key [a])) := by
  obtain rfl | rfl | ⟨k, rfl⟩ := ha
  · rw [perform_step, beginRun_of_halted h, cycle_of_halted h]; rfl
  · rw [perform_tick, tick_of_halted h]; rfl
  · rfl

theorem performAll_of_halted {acts : List Action} (h : s.halt = some f)
    (hacts : ∀ a ∈ acts, a = .step ∨ a = .tick ∨ ∃ k, a = .setKeys k) :
    performAll acts s = .next (s.setKey (keysAfter s.key acts)) := by
  induction acts generalizing s with
  | nil => rfl
  | cons a rest ih =>
    obtain ⟨ha, hrest⟩ := List.forall_mem_cons.1 hacts
    simp only [performAll, perform_of_halted h ha]
    exact ih h hrest

end

/-- Settles O15, by induction on the actions; a reset is performed whatever the halt status. -/
theorem haltIsFinal : Obligations.HaltIsFinal := by
  intro acts s hhalted hacts
  obtain ⟨f, hf⟩ := Option.ne_none_iff_exists'.1 hhalted
  have hend := performAll_of_halted hf hacts
  exact ⟨hend, _, (performAll_append hend [.reset]).trans (performAll_singleton _ _), rfl⟩

end Sys2Proof.Machine
end

section
/-! The tick (60_exceptions.md R180). -/

namespace Sys2Proof.Machine

section
variable {s : State}

theorem tick_dt_toNat (h : s.halt = none) : (tick s).dt.toNat = s.dt.toNat - 1 := by
  rw [tick_of_running h]
  exact countDown_toNat s.dt

theorem tick_st_toNat (h : s.halt = none) : (tick s).st.toNat = s.st.toNat - 1 := by
  rw [tick_of_running h]
  exact countDown_toNat s.st

end

/-- Settles O53: both timers count down while running, and a halted block ignores the tick. -/
theorem tickDecrementsTimers : Obligations.TickDecrementsTimers := by
  refine fun s => ⟨fun hrunning => ⟨tick s, perform_tick s, ?_⟩, fun hhalted => ?_⟩
  · have hdt := tick_dt_toNat hrunning
    have hst := tick_st_toNat hrunning
    exact ⟨by omega, by omega, by omega, by omega, tick_sameOutside s⟩
  · obtain ⟨f, hf⟩ := Option.ne_none_iff_exists'.1 hhalted
    rw [perform_tick, tick_of_halted hf]

end Sys2Proof.Machine
end

section
/-! The decoder and the encoder (30_encoding.md sections 1, 3 and 4): each is the other's inverse, the rows of the opcode
table, and the Unknown words. -/

namespace Sys2Proof

/-! ## A word is packed again from its own fields (R71, R72) -/

section
variable {w : Word} {op : BitVec 4}

theorem packNNN_fieldNNN (hop : fieldOp w = op.toNat) : packNNN op (fieldNNN w) = w := by
  apply BitVec.eq_of_toNat_eq
  rw [fieldOp_eq] at hop
  rw [packNNN_toNat, fieldNNN_toNat]
  omega

theorem packXKK_fieldX {kk : Byte} (hop : fieldOp w = op.toNat) (hkk : (fieldKK w).toNat = kk.toNat) :
    packXKK op (fieldX w) kk = w := by
  apply BitVec.eq_of_toNat_eq
  rw [fieldOp_eq] at hop
  rw [fieldKK_toNat] at hkk
  rw [packXKK_toNat, fieldX_val]
  omega

theorem packXYN_fieldX_fieldY {n : Height} (hop : fieldOp w = op.toNat) (hn : (fieldN w).val = n.val) :
    packXYN op (fieldX w) (fieldY w) n = w := by
  apply BitVec.eq_of_toNat_eq
  rw [fieldOp_eq] at hop
  rw [fieldN_val] at hn
  rw [packXYN_toNat, fieldX_val, fieldY_val]
  omega

end

/-! ## Decoding an encoded instruction -/

theorem sysOperandOk_iff {nnn : Addr12} : sysOperandOk nnn = true ↔ nnn ≠ 0x0E0 ∧ nnn ≠ 0x0EE := by
  simp only [sysOperandOk, Bool.and_eq_true, bne_iff_ne]

/-- The operand of SYS is told apart from the two FIXED words by the well-formedness (R74 rows 1 to 3). -/
theorem decode_encode_sys {nnn : Addr12} (h : sysOperandOk nnn = true) :
    decode (packNNN 0x0 nnn) = .instr (.sys nnn) := by
  obtain ⟨hcls, hret⟩ := sysOperandOk_iff.1 h
  have hfield := fieldNNN_packNNN 0x0 nnn
  have hne_cls : packNNN 0x0 nnn ≠ 0x00E0 := fun e => hcls (by rw [← hfield, e]; rfl)
  have hne_ret : packNNN 0x0 nnn ≠ 0x00EE := fun e => hret (by rw [← hfield, e]; rfl)
  have hfamily : decode (packNNN 0x0 nnn) = decodeFamily0 (packNNN 0x0 nnn) := by simp [decode]
  rw [hfamily, decodeFamily0, if_neg hne_cls, if_neg hne_ret, hfield]

theorem decode_encode {i : Instr} (h : i.wf = true) : decode (encode i) = .instr i := by
  cases i with
  | cls | ret => rfl
  | sys nnn => exact decode_encode_sys h
  | jp _ | call _ | ldI _ | jpV0 _ => simp [encode, decode]
  | seByte _ _ | sneByte _ _ | ldByte _ _ | addByte _ _ | rnd _ _ => simp [encode, decode]
  | seReg _ _ | sneReg _ _ => simp [encode, decode, decodeLowNibbleZero]
  | ldReg _ _ | orReg _ _ | andReg _ _ | xorReg _ _ | addReg _ _ | sub _ _ | shr _ _ | subn _ _ | shl _ _ =>
    simp [encode, decode, decodeFamily8]
  | drw _ _ _ => simp [encode, decode]
  | skp _ | sknp _ => simp [encode, decode, decodeFamilyE]
  | ldVxDT _ | ldVxK _ | ldDTVx _ | ldSTVx _ | addI _ | ldF _ | ldB _ | storeRegs _ | loadRegs _ =>
    simp [encode, decode, decodeFamilyF]

/-- Settles O2: the fields of a packed word are those it was packed from, and they lead the decoder to the row. -/
theorem decodeInvertsEncode : Obligations.DecodeInvertsEncode := fun _ => decode_encode

/-! ## Encoding a decoded word, family by family -/

section
variable {w : Word} {i : Instr}

theorem encode_of_decodeFamily0 (hop : fieldOp w = 0x0) (h : decodeFamily0 w = .instr i) :
    i.wf = true ∧ encode i = w := by
  unfold decodeFamily0 at h
  split at h
  · next hcls => cases h; exact ⟨rfl, hcls.symm⟩
  · next hcls =>
    split at h
    · next hret => cases h; exact ⟨rfl, hret.symm⟩
    · next hret =>
      cases h
      have hw : packNNN 0x0 (fieldNNN w) = w := packNNN_fieldNNN hop
      have hne_cls : fieldNNN w ≠ 0x0E0 := fun e => hcls (by rw [← hw, e]; rfl)
      have hne_ret : fieldNNN w ≠ 0x0EE := fun e => hret (by rw [← hw, e]; rfl)
      exact ⟨sysOperandOk_iff.2 ⟨hne_cls, hne_ret⟩, hw⟩

theorem encode_of_decodeFamily8 (hop : fieldOp w = 0x8) (h : decodeFamily8 w = .instr i) :
    i.wf = true ∧ encode i = w := by
  unfold decodeFamily8 at h
  split at h <;> cases h <;> exact ⟨rfl, packXYN_fieldX_fieldY hop ‹_›⟩

theorem encode_of_decodeFamilyE (hop : fieldOp w = 0xE) (h : decodeFamilyE w = .instr i) :
    i.wf = true ∧ encode i = w := by
  unfold decodeFamilyE at h
  split at h <;> cases h <;> exact ⟨rfl, packXKK_fieldX hop ‹_›⟩

theorem encode_of_decodeFamilyF (hop : fieldOp w = 0xF) (h : decodeFamilyF w = .instr i) :
    i.wf = true ∧ encode i = w := by
  unfold decodeFamilyF at h
  split at h <;> cases h <;> exact ⟨rfl, packXKK_fieldX hop ‹_›⟩

/-- The two families of one instruction each, at low nibble 0. -/
theorem eq_of_decodeLowNibbleZero {j : Instr} (h : decodeLowNibbleZero w j = .instr i) :
    (fieldN w).val = 0 ∧ j = i := by
  unfold decodeLowNibbleZero at h
  split at h
  · next hn => exact ⟨hn, Decoded.instr.inj h⟩
  · cases h

theorem encode_of_decode (h : decode w = .instr i) : i.wf = true ∧ encode i = w := by
  unfold decode at h
  split at h
  case h_1 hop => exact encode_of_decodeFamily0 hop h
  case h_6 hop | h_10 hop =>
    obtain ⟨hn, rfl⟩ := eq_of_decodeLowNibbleZero h
    exact ⟨rfl, packXYN_fieldX_fieldY hop hn⟩
  case h_9 hop => exact encode_of_decodeFamily8 hop h
  case h_15 hop => exact encode_of_decodeFamilyE hop h
  case h_16 hop => exact encode_of_decodeFamilyF hop h
  case h_2 hop | h_3 hop | h_11 hop | h_12 hop => cases h; exact ⟨rfl, packNNN_fieldNNN hop⟩
  case h_4 hop | h_5 hop | h_7 hop | h_8 hop | h_13 hop => cases h; exact ⟨rfl, packXKK_fieldX hop rfl⟩
  case h_14 hop => cases h; exact ⟨rfl, packXYN_fieldX_fieldY hop rfl⟩
  case h_17 => cases h

end

/-- Settles O3: every family of the decoder answers with the word's own fields, which pack to the word again. -/
theorem encodeInvertsDecode : Obligations.EncodeInvertsDecode := fun _ _ => encode_of_decode

/-! ## The rows of the opcode table (R74) -/

section
variable {w : Word}

/-- A word of a row without a low mask has the row's family. -/
theorem fieldOp_of_mask {op : BitVec 4} (h : w &&& 0xF000 = packNNN op 0) : fieldOp w = op.toNat := by
  have hw := congrArg BitVec.toNat h
  rw [and_F000_toNat, packNNN_toNat, show (0 : Addr12).toNat = 0 from rfl] at hw
  rw [fieldOp_eq]
  omega

/-- A word of a row of format XY has the row's family and low nibble. -/
theorem fields_of_maskNibble {op : BitVec 4} {n : Height} (h : w &&& 0xF00F = packXYN op 0 0 n) :
    fieldOp w = op.toNat ∧ (fieldN w).val = n.val := by
  have hw := congrArg BitVec.toNat h
  rw [and_F00F_toNat, packXYN_toNat, show (0 : Reg).val = 0 from rfl] at hw
  rw [fieldOp_eq, fieldN_val]
  omega

/-- A word of a row of format X has the row's family and low byte. -/
theorem fields_of_maskByte {op : BitVec 4} {kk : Byte} (h : w &&& 0xF0FF = packXKK op 0 kk) :
    fieldOp w = op.toNat ∧ (fieldKK w).toNat = kk.toNat := by
  have hw := congrArg BitVec.toNat h
  have hkk := kk.isLt
  rw [and_F0FF_toNat, packXKK_toNat, show (0 : Reg).val = 0 from rfl] at hw
  rw [fieldOp_eq, fieldKK_toNat]
  omega

theorem encode_nnn_of_mask {op : BitVec 4} (h : w &&& 0xF000 = packNNN op 0) : packNNN op (fieldNNN w) = w :=
  packNNN_fieldNNN (fieldOp_of_mask h)

theorem encode_xkk_of_mask {op : BitVec 4} (h : w &&& 0xF000 = packNNN op 0) :
    packXKK op (fieldX w) (fieldKK w) = w :=
  packXKK_fieldX (fieldOp_of_mask h) rfl

theorem encode_xyn_of_mask {op : BitVec 4} (h : w &&& 0xF000 = packNNN op 0) :
    packXYN op (fieldX w) (fieldY w) (fieldN w) = w :=
  packXYN_fieldX_fieldY (fieldOp_of_mask h) rfl

theorem encode_xy_of_mask {op : BitVec 4} {n : Height} (h : w &&& 0xF00F = packXYN op 0 0 n) :
    packXYN op (fieldX w) (fieldY w) n = w :=
  packXYN_fieldX_fieldY (fields_of_maskNibble h).1 (fields_of_maskNibble h).2

theorem encode_x_of_mask {op : BitVec 4} {kk : Byte} (h : w &&& 0xF0FF = packXKK op 0 kk) :
    packXKK op (fieldX w) kk = w :=
  packXKK_fieldX (fields_of_maskByte h).1 (fields_of_maskByte h).2

/-- A word that matches a row is the word of an instruction of that row, the one with the word's own fields. -/
theorem exists_encode_of_row {i : Instr} (h : w &&& (tableRow i).mask = (tableRow i).pat) :
    ∃ j, encode j = w ∧ tableRow j = tableRow i := by
  cases i with
  | cls => exact ⟨.cls, h.symm.trans (and_FFFF w), rfl⟩
  | ret => exact ⟨.ret, h.symm.trans (and_FFFF w), rfl⟩
  | sys _ => exact ⟨.sys (fieldNNN w), encode_nnn_of_mask h, rfl⟩
  | jp _ => exact ⟨.jp (fieldNNN w), encode_nnn_of_mask h, rfl⟩
  | call _ => exact ⟨.call (fieldNNN w), encode_nnn_of_mask h, rfl⟩
  | ldI _ => exact ⟨.ldI (fieldNNN w), encode_nnn_of_mask h, rfl⟩
  | jpV0 _ => exact ⟨.jpV0 (fieldNNN w), encode_nnn_of_mask h, rfl⟩
  | seByte _ _ => exact ⟨.seByte (fieldX w) (fieldKK w), encode_xkk_of_mask h, rfl⟩
  | sneByte _ _ => exact ⟨.sneByte (fieldX w) (fieldKK w), encode_xkk_of_mask h, rfl⟩
  | ldByte _ _ => exact ⟨.ldByte (fieldX w) (fieldKK w), encode_xkk_of_mask h, rfl⟩
  | addByte _ _ => exact ⟨.addByte (fieldX w) (fieldKK w), encode_xkk_of_mask h, rfl⟩
  | rnd _ _ => exact ⟨.rnd (fieldX w) (fieldKK w), encode_xkk_of_mask h, rfl⟩
  | drw _ _ _ => exact ⟨.drw (fieldX w) (fieldY w) (fieldN w), encode_xyn_of_mask h, rfl⟩
  | seReg _ _ => exact ⟨.seReg (fieldX w) (fieldY w), encode_xy_of_mask h, rfl⟩
  | sneReg _ _ => exact ⟨.sneReg (fieldX w) (fieldY w), encode_xy_of_mask h, rfl⟩
  | ldReg _ _ => exact ⟨.ldReg (fieldX w) (fieldY w), encode_xy_of_mask h, rfl⟩
  | orReg _ _ => exact ⟨.orReg (fieldX w) (fieldY w), encode_xy_of_mask h, rfl⟩
  | andReg _ _ => exact ⟨.andReg (fieldX w) (fieldY w), encode_xy_of_mask h, rfl⟩
  | xorReg _ _ => exact ⟨.xorReg (fieldX w) (fieldY w), encode_xy_of_mask h, rfl⟩
  | addReg _ _ => exact ⟨.addReg (fieldX w) (fieldY w), encode_xy_of_mask h, rfl⟩
  | sub _ _ => exact ⟨.sub (fieldX w) (fieldY w), encode_xy_of_mask h, rfl⟩
  | shr _ _ => exact ⟨.shr (fieldX w) (fieldY w), encode_xy_of_mask h, rfl⟩
  | subn _ _ => exact ⟨.subn (fieldX w) (fieldY w), encode_xy_of_mask h, rfl⟩
  | shl _ _ => exact ⟨.shl (fieldX w) (fieldY w), encode_xy_of_mask h, rfl⟩
  | skp _ => exact ⟨.skp (fieldX w), encode_x_of_mask h, rfl⟩
  | sknp _ => exact ⟨.sknp (fieldX w), encode_x_of_mask h, rfl⟩
  | ldVxDT _ => exact ⟨.ldVxDT (fieldX w), encode_x_of_mask h, rfl⟩
  | ldVxK _ => exact ⟨.ldVxK (fieldX w), encode_x_of_mask h, rfl⟩
  | ldDTVx _ => exact ⟨.ldDTVx (fieldX w), encode_x_of_mask h, rfl⟩
  | ldSTVx _ => exact ⟨.ldSTVx (fieldX w), encode_x_of_mask h, rfl⟩
  | addI _ => exact ⟨.addI (fieldX w), encode_x_of_mask h, rfl⟩
  | ldF _ => exact ⟨.ldF (fieldX w), encode_x_of_mask h, rfl⟩
  | ldB _ => exact ⟨.ldB (fieldX w), encode_x_of_mask h, rfl⟩
  | storeRegs _ => exact ⟨.storeRegs (fieldX w), encode_x_of_mask h, rfl⟩
  | loadRegs _ => exact ⟨.loadRegs (fieldX w), encode_x_of_mask h, rfl⟩

end

/-- SYS with one of its two excluded operands is the only instruction that is not well formed (R74 row 1). -/
theorem wf_or_encode_eq_fixed (i : Instr) : i.wf = true ∨ encode i = 0x00E0 ∨ encode i = 0x00EE := by
  cases i with
  | sys nnn =>
    by_cases hcls : nnn = 0x0E0
    · subst hcls; exact .inr (.inl rfl)
    · by_cases hret : nnn = 0x0EE
      · subst hret; exact .inr (.inr rfl)
      · exact .inl (sysOperandOk_iff.2 ⟨hcls, hret⟩)
  | _ => exact .inl rfl

theorem row_of_decode {w : Word} {i : Instr} (h : decode w = .instr i) :
    w &&& (tableRow i).mask = (tableRow i).pat := by
  obtain ⟨-, rfl⟩ := encode_of_decode h
  exact Laws.TableRow.all i

theorem decode_of_row {w : Word} {i : Instr} (h : w &&& (tableRow i).mask = (tableRow i).pat) :
    (w = 0x00E0 ∧ decode w = .instr .cls) ∨ (w = 0x00EE ∧ decode w = .instr .ret) ∨
      ∃ j, decode w = .instr j ∧ tableRow j = tableRow i := by
  obtain ⟨j, rfl, hrow⟩ := exists_encode_of_row h
  obtain hwf | hcls | hret := wf_or_encode_eq_fixed j
  · exact .inr (.inr ⟨j, decode_encode hwf, hrow⟩)
  · exact .inl ⟨hcls, by rw [hcls]; rfl⟩
  · exact .inr (.inl ⟨hret, by rw [hret]; rfl⟩)

/-- The decoder's two results (R74, R75). -/
theorem decode_unknown_or_instr (w : Word) : decode w = .unknown w ∨ ∃ i, decode w = .instr i := by
  cases h : decode w with
  | instr i => exact .inr ⟨i, rfl⟩
  | unknown u => exact .inl (by rw [Machine.decode_unknown_bits h])

/-- Settles O4: the rows by `row_of_decode` and `decode_of_row`, and a word that decodes to an instruction is of that
instruction's row. -/
theorem decodeFollowsMaskAndMatch : Obligations.DecodeFollowsMaskAndMatch := by
  refine fun w => ⟨fun _ => row_of_decode, fun _ => decode_of_row, fun hnone => ?_⟩
  obtain hunknown | ⟨i, hi⟩ := decode_unknown_or_instr w
  · exact hunknown
  · exact absurd (row_of_decode hi) (hnone i)

/-! ## The Unknown words (R75) -/

section
variable (w : Word)

theorem decodeFamily0_ne_unknown : decodeFamily0 w ≠ .unknown w := by
  unfold decodeFamily0
  split
  · nofun
  · split <;> nofun

theorem decodeLowNibbleZero_eq_unknown_iff (i : Instr) :
    decodeLowNibbleZero w i = .unknown w ↔ w.toNat % 16 ≠ 0 := by
  simp [decodeLowNibbleZero, fieldN_val]

theorem decodeFamily8_eq_unknown_iff :
    decodeFamily8 w = .unknown w ↔ w.toNat % 16 ∈ [0x8, 0x9, 0xA, 0xB, 0xC, 0xD, 0xF] := by
  unfold decodeFamily8
  rw [fieldN_val]
  have hlt : w.toNat % 16 < 16 := Nat.mod_lt _ (by decide)
  generalize w.toNat % 16 = n at hlt
  split <;> simp
  simp only [imp_false] at *
  omega

theorem decodeFamilyE_eq_unknown_iff : decodeFamilyE w = .unknown w ↔ w.toNat % 256 ∉ [0x9E, 0xA1] := by
  unfold decodeFamilyE
  rw [fieldKK_toNat]
  split <;> simp_all

theorem decodeFamilyF_eq_unknown_iff :
    decodeFamilyF w = .unknown w ↔
      w.toNat % 256 ∉ [0x07, 0x0A, 0x15, 0x18, 0x1E, 0x29, 0x33, 0x55, 0x65] := by
  unfold decodeFamilyF
  rw [fieldKK_toNat]
  split <;> simp_all

/-- Which words are Unknown, by the family: the decoder's own split. -/
theorem decode_eq_unknown_iff :
    decode w = .unknown w ↔
      (fieldOp w = 0x5 ∧ w.toNat % 16 ≠ 0) ∨
      (fieldOp w = 0x8 ∧ w.toNat % 16 ∈ [0x8, 0x9, 0xA, 0xB, 0xC, 0xD, 0xF]) ∨
      (fieldOp w = 0x9 ∧ w.toNat % 16 ≠ 0) ∨
      (fieldOp w = 0xE ∧ w.toNat % 256 ∉ [0x9E, 0xA1]) ∨
      (fieldOp w = 0xF ∧ w.toNat % 256 ∉ [0x07, 0x0A, 0x15, 0x18, 0x1E, 0x29, 0x33, 0x55, 0x65]) := by
  have hlt : fieldOp w < 16 := (w.extractLsb' 12 4).isLt
  unfold decode
  split
  case h_1 hop => simp [hop, decodeFamily0_ne_unknown]
  case h_6 hop | h_10 hop => simp [hop, decodeLowNibbleZero_eq_unknown_iff]
  case h_9 hop => simp only [hop, decodeFamily8_eq_unknown_iff]; simp
  case h_15 hop => simp only [hop, decodeFamilyE_eq_unknown_iff]; simp
  case h_16 hop => simp only [hop, decodeFamilyF_eq_unknown_iff]; simp
  case h_17 => simp only [imp_false] at *; omega
  all_goals next hop => simp [hop]

end

/-- Settles O5: the decoder's families as quotients and remainders of the word. -/
theorem unknownWordsByFamily : Obligations.UnknownWordsByFamily := fun w =>
  ⟨by rw [decode_eq_unknown_iff, fieldOp_eq], decode_unknown_or_instr w⟩

/-! ## Words as numbers -/

/-- Settles O1, by evaluation of the decoder on each word. -/
theorem knownWordsDecode : Obligations.KnownWordsDecode := by
  unfold Obligations.KnownWordsDecode
  decide

/-- Settles O6: an encoded word is packed from its digits, and the packed words are numbers by the lemmas of the three
formats. -/
theorem encodingPatterns : Obligations.EncodingPatterns := by
  refine ⟨rfl, rfl, fun nnn => ?_, fun x kk => ?_, fun x y => ?_, fun x y n => ?_, fun x => ?_⟩
  · simp [encode, packNNN_toNat]
  · simp [encode, packXKK_toNat]
  · simp +arith [encode, packXYN_toNat]
  · simp [encode, packXYN_toNat]
  · simp +arith [encode, packXKK_toNat]

end Sys2Proof
end

section
/-! The step (30_encoding.md R80), its totality (00_scope.md R9) and the causes of a fault (60_exceptions.md R170 to
R173). -/

namespace Sys2Proof.Machine

/-! ## Every step answers -/

theorem exec_answers (i : Instr) (s : State) : ∃ t, exec i s = .next t := by
  obtain ⟨f, hraise⟩ | ⟨t, ht, -⟩ := exec_raises_or_keeps_halt i s
  · exact ⟨_, hraise⟩
  · exact ⟨t, ht⟩

theorem cycle_answers (s : State) : ∃ t, cycle s = .next t := by
  cases hs : s.halt with
  | some f => exact ⟨s, cycle_of_halted hs⟩
  | none =>
    obtain ⟨f, hraise⟩ | ⟨t, ht, -⟩ := cycle_raises_or_keeps_halt hs
    · exact ⟨_, hraise⟩
    · exact ⟨t, ht⟩

/-- What a load does depends on memory only: it writes memory, or the failure is signalled; it is never refused (R34,
R201). -/
theorem loadAction_of_mem (m : Memory) (bytes : List Byte) (origin : Nat) :
    (∃ m', ∀ u : State, u.mem = m → loadAction u bytes origin = .next (u.setMem m')) ∨
      ∀ u : State, u.mem = m → loadAction u bytes origin = .next (u.emit .loadError) := by
  by_cases hfits : romFits bytes origin = true
  · cases hw : writeBlock m origin bytes with
    | ok m' => exact .inl ⟨m', fun u hu => by rw [loadAction, load, if_pos hfits, hu, hw]⟩
    | error f => exact .inr fun u hu => by rw [loadAction, load, if_pos hfits, hu, hw]
  · exact .inr fun u _ => by rw [loadAction, load, if_neg hfits]

theorem loadAction_answers (s : State) (bytes : List Byte) (origin : Nat) :
    ∃ t, loadAction s bytes origin = .next t := by
  obtain ⟨m, h⟩ | h := loadAction_of_mem s.mem bytes origin
  · exact ⟨_, h s rfl⟩
  · exact ⟨_, h s rfl⟩

theorem act_answers (a : Action) (s : State) : ∃ t, act a s = .next t := by
  cases a with
  | step => exact cycle_answers s.beginRun
  | load bytes origin => exact loadAction_answers s bytes origin
  | tick | setKeys _ | reset | setStrict _ => exact ⟨_, rfl⟩

theorem perform_answers (a : Action) (s : State) : ∃ t, perform a s = .next t := by
  cases h : offered a s with
  | true => exact perform_of_offered h ▸ act_answers a s
  | false => exact ⟨s, perform_of_not_offered h⟩

theorem step_answers (s : State) : ∃ t, step s = .next t := by
  cases h : s.agenda with
  | nil => exact step_of_agenda_nil h ▸ perform_answers .step s
  | cons a rest => exact step_of_agenda_cons h ▸ perform_answers a (s.setAgenda rest)

/-- Settles O17: a step performs an action, an action that is not the engine's answers by its definition, and the
engine's by `exec_raises_or_keeps_halt`. -/
theorem everyStepAnswers : Obligations.EveryStepAnswers := ⟨exec_answers, perform_answers, step_answers⟩

/-! ## The step with an empty agenda -/

section
variable {s : State}

theorem step_of_halted (hagenda : s.agenda = []) (h : s.halt ≠ none) : step s = .next s := by
  obtain ⟨f, hf⟩ := Option.ne_none_iff_exists'.1 h
  rw [step_of_agenda_nil hagenda, perform_step, beginRun_of_halted hf, cycle_of_halted hf]

/-- A step of a running block is the engine's cycle, past the boot. -/
theorem step_of_running (hagenda : s.agenda = []) (h : s.halt = none) : step s = cycle (s.setPhase .running) := by
  rw [step_of_agenda_nil hagenda, perform_step, beginRun_of_running h]

theorem step_of_not_fetchable (hagenda : s.agenda = []) (h : s.halt = none) (hp : ¬s.pc.toNat + 1 < Config.memSize) :
    step s = raise (.outOfBounds (max s.pc.toNat Config.memSize)) (s.setPhase .running) := by
  rw [step_of_running hagenda h]
  exact cycle_of_not_fetchable (s := s.setPhase .running) h hp

end

/-- Everything a cycle of a running block can be (R80): a fetch that faults, or the effect of the word at PC. -/
theorem cycle_cases {s : State} (h : s.halt = none) :
    (s.pc.toNat > 4094 ∧ cycle s = raise (.outOfBounds (max s.pc.toNat 4096)) s) ∨
    (s.pc.toNat ≤ 4094 ∧ ∃ w, w = wordOfBytes (s.mem.peek s.pc.toNat) (s.mem.peek (s.pc.toNat + 1)) ∧
      ((∃ i, decode w = .instr i ∧ cycle s = exec i s) ∨ (decode w = .unknown w ∧ cycle s = execUnknown w s))) := by
  have hsize : Config.memSize = 4096 := rfl
  by_cases hp : s.pc.toNat + 1 < Config.memSize
  · refine .inr ⟨by omega, _, rfl, ?_⟩
    obtain hw | ⟨i, hi⟩ := decode_unknown_or_instr (wordOfBytes (s.mem.peek s.pc.toNat) (s.mem.peek (s.pc.toNat + 1)))
    · exact .inr ⟨hw, cycle_of_unknown h hp hw⟩
    · exact .inl ⟨i, hi, cycle_of_instr h hp hi⟩
  · exact .inl ⟨by omega, cycle_of_not_fetchable h hp⟩

/-- Settles O11: the cases of the cycle for a state past its boot. -/
theorem stepRunsDecodedInstruction : Obligations.StepRunsDecodedInstruction := by
  have hsize : Config.memSize = 4096 := rfl
  refine ⟨fun s hagenda => ⟨step_of_halted hagenda, fun hs hpc => ?above, fun hs hpc => ?last, fun i hs hpc hi => ?instr,
    fun w hs hpc hw => ?unknown⟩, fun s a rest h => step_of_agenda_cons h⟩
  case above =>
    rw [step_of_not_fetchable hagenda hs (by omega), Nat.max_eq_left (by omega)]
    rfl
  case last =>
    rw [step_of_not_fetchable hagenda hs (by omega), hpc]
    rfl
  case instr =>
    rw [step_of_running hagenda hs]
    exact cycle_of_instr hs (by rw [State.setPhase_pc]; omega) hi
  case unknown =>
    rw [step_of_running hagenda hs]
    exact cycle_of_unknown hs (by rw [State.setPhase_pc]; omega) hw

/-- A word made of two bytes, as a number (20_memory.md R54). -/
theorem wordOfBytes_toNat (hi lo : Byte) : (wordOfBytes hi lo).toNat = 256 * hi.toNat + lo.toNat := by
  show (hi ++ lo).toNat = _
  rw [BitVec.toNat_append, ← Nat.shiftLeft_add_eq_or_of_lt lo.isLt, Nat.shiftLeft_eq]
  omega

/-- Settles O13: below 4095 fetch answers the word made of the two bytes. -/
theorem fetchIsBigEndian : Obligations.FetchIsBigEndian := by
  intro s hpc
  have hfetch : s.pc.toNat + 1 < Config.memSize := Nat.lt_of_le_of_lt (Nat.succ_le_succ hpc) (by decide)
  exact ⟨_, (fetch_eq s).trans (if_pos hfetch), wordOfBytes_toNat _ _⟩

/-! ## The causes of a fault -/

/-- Why an instruction faults, and the fault it raises (60_exceptions.md R171, R172). -/
inductive FaultCause (s : State) : Instr → Fault → Prop where
  /-- CALL on a full stack (R93; assumption 9). -/
  | overflow {nnn : Addr12} (h : 16 ≤ s.stack.length) : FaultCause s (.call nnn) (.stackFault .overflow)
  /-- RET on an empty stack (R91). -/
  | underflow (h : s.stack = []) : FaultCause s .ret (.stackFault .underflow)
  /-- A sprite that passes the end of memory (R131). -/
  | sprite {x y : Reg} {n : Height} (h : n.val ≠ 0 ∧ s.i.toNat + n.val - 1 > 4095) :
      FaultCause s (.drw x y n) (.outOfBounds (max s.i.toNat 4096))
  /-- Digits that pass the end of memory (R161). -/
  | digits {x : Reg} (h : s.i.toNat + 2 > 4095) : FaultCause s (.ldB x) (.outOfBounds (max s.i.toNat 4096))
  /-- A block store that passes the end of memory (R162). -/
  | blockStore {x : Reg} (h : s.i.toNat + x.val > 4095) :
      FaultCause s (.storeRegs x) (.outOfBounds (max s.i.toNat 4096))
  /-- A block load that passes the end of memory (R163). -/
  | blockLoad {x : Reg} (h : s.i.toNat + x.val > 4095) :
      FaultCause s (.loadRegs x) (.outOfBounds (max s.i.toNat 4096))

/-- `i` raises a fault for its cause in `s`, or leaves the halt status alone. -/
def FaultsForCause (i : Instr) (s : State) : Prop :=
  (∃ f, exec i s = raise f s ∧ FaultCause s i f) ∨ ∃ t, exec i s = .next t ∧ t.halt = s.halt

/-- A checked store that fits leaves the halt status alone. -/
theorem checkedStore_keeps_halt (s : State) {bs : List Byte} (hb : bs ≠ []) (h : s.i.toNat + bs.length ≤ 4096) :
    ∃ t, checkedThen (storeBlock s.mem s.i.toNat bs) s (fun m => (s.setMem m).advance) = .next t ∧
      t.halt = s.halt := by
  obtain ⟨-, m, hm⟩ | ⟨hover, -⟩ := storeBlock_answers s.mem s.i.toNat hb
  · exact ⟨(s.setMem m).advance, by rw [hm]; rfl, rfl⟩
  · exact absurd h (Nat.not_le.2 hover)

theorem faultsForCause (i : Instr) (s : State) : FaultsForCause i s := by
  cases i with
  | call nnn =>
    by_cases h : s.stack.length < 16
    · exact .inr ⟨_, exec_call_of_lt h nnn, rfl⟩
    · exact .inl ⟨_, exec_call_of_ge (Nat.not_lt.1 h) nnn, .overflow (Nat.not_lt.1 h)⟩
  | ret =>
    cases h : s.stack with
    | nil => exact .inl ⟨_, exec_ret_of_nil h, .underflow h⟩
    | cons w rest => exact .inr ⟨_, exec_ret_of_cons h, rfl⟩
  | drw x y n =>
    by_cases h : n.val ≠ 0 ∧ s.i.toNat + n.val - 1 > 4095
    · exact .inl ⟨_, exec_drw_of_not_fits h x y, .sprite h⟩
    · exact .inr ⟨_, exec_drw_of_fits (by omega) x y, rfl⟩
  | ldB x =>
    by_cases h : s.i.toNat + 2 > 4095
    · exact .inl ⟨_, exec_ldB_of_not_fits h x, .digits h⟩
    · right
      rw [exec_ldB_eq]
      exact checkedStore_keeps_halt s (bcdDigits_ne_nil _) (by rw [bcdDigits_length]; omega)
  | storeRegs x =>
    by_cases h : s.i.toNat + x.val > 4095
    · exact .inl ⟨_, exec_storeRegs_of_not_fits h, .blockStore h⟩
    · right
      rw [exec_storeRegs_eq]
      exact checkedStore_keeps_halt s (regsUpTo_ne_nil s x) (by rw [regsUpTo_length]; omega)
  | loadRegs x =>
    by_cases h : s.i.toNat + x.val > 4095
    · exact .inl ⟨_, exec_loadRegs_of_not_fits h, .blockLoad h⟩
    · exact .inr ⟨_, exec_loadRegs_of_fits (Nat.not_lt.1 h), by rw [State.setRegsFrom_eq]; rfl⟩
  | ldVxK x =>
    cases h : s.lowestKey with
    | none => exact .inr ⟨s, exec_ldVxK_of_none h x, rfl⟩
    | some k => exact .inr ⟨_, exec_ldVxK_of_some h x, rfl⟩
  | cls | sys _ | jp _ | jpV0 _ | seByte _ _ | sneByte _ _ | seReg _ _ | sneReg _ _ | skp _ | sknp _ | ldI _ | addI _
  | ldF _ | ldDTVx _ | ldSTVx _ | ldVxDT _ | rnd _ _ | ldByte _ _ | addByte _ _ | ldReg _ _ | orReg _ _ | andReg _ _
  | xorReg _ _ | addReg _ _ | sub _ _ | shr _ _ | subn _ _ | shl _ _ =>
    exact .inr ⟨_, rfl, rfl⟩

section
variable {s t : State} {f : Fault}

theorem halt_of_raise {g : Fault} (h : raise g s = .next t) (hf : t.halt = some f) : g = f := by
  obtain rfl := Host.Outcome.next.inj h
  exact Option.some.inj hf

/-- An instruction that halts a running block does so for its cause. -/
theorem faultCause_of_exec {i : Instr} (hs : s.halt = none) (h : exec i s = .next t) (hf : t.halt = some f) :
    FaultCause s i f := by
  obtain ⟨g, hraise, hcause⟩ | ⟨u, hu, hkept⟩ := faultsForCause i s
  · rwa [halt_of_raise (hraise.symm.trans h) hf] at hcause
  · obtain rfl : u = t := Host.Outcome.next.inj (hu.symm.trans h)
    rw [hkept, hs] at hf
    cases hf

/-- An Unknown opcode halts a running block in strict mode only (R173). -/
theorem strict_of_execUnknown {w : Word} (hs : s.halt = none) (h : execUnknown w s = .next t) (hf : t.halt = some f) :
    s.strict = true ∧ f = .unknownOpcode w := by
  cases hstrict : s.strict with
  | true =>
    rw [execUnknown_of_strict hstrict] at h
    exact ⟨rfl, (halt_of_raise h hf).symm⟩
  | false =>
    rw [execUnknown_of_permissive hstrict] at h
    obtain rfl := Host.Outcome.next.inj h
    cases hs.symm.trans hf

/-- The causes of a cycle's fault: the fetch, the Unknown opcode, or the instruction's own. -/
theorem cycle_fault_cases (hs : s.halt = none) (h : cycle s = .next t) (hf : t.halt = some f) :
    (s.pc.toNat > 4094 ∧ f = .outOfBounds (max s.pc.toNat 4096)) ∨
    (s.pc.toNat ≤ 4094 ∧ ∃ w, w = wordOfBytes (s.mem.peek s.pc.toNat) (s.mem.peek (s.pc.toNat + 1)) ∧
      ((decode w = .unknown w ∧ s.strict = true ∧ f = .unknownOpcode w) ∨
        ∃ i, decode w = .instr i ∧ FaultCause s i f)) := by
  obtain ⟨hpc, hcycle⟩ | ⟨hpc, w, hw, ⟨i, hi, hcycle⟩ | ⟨hunknown, hcycle⟩⟩ := cycle_cases hs
  · exact .inl ⟨hpc, (halt_of_raise (hcycle.symm.trans h) hf).symm⟩
  · exact .inr ⟨hpc, w, hw, .inr ⟨i, hi, faultCause_of_exec hs (hcycle.symm.trans h) hf⟩⟩
  · exact .inr ⟨hpc, w, hw, .inl ⟨hunknown, strict_of_execUnknown hs (hcycle.symm.trans h) hf⟩⟩

theorem haltCode_of_halted (h : s.halt = some f) : haltCode s = faultCode f := by
  simp only [haltCode, h]

end

/-- Settles O16: the causes of `cycle_fault_cases`, an instruction's own cause by the constructor of `FaultCause`. -/
theorem haltCausesAreListed : Obligations.HaltCausesAreListed := by
  intro s t f hs hcycle hf
  rw [haltCode_of_halted hf]
  obtain ⟨hpc, rfl⟩ | ⟨hpc, w, hw, ⟨hunknown, hstrict, rfl⟩ | ⟨i, hi, hcause⟩⟩ := cycle_fault_cases hs hcycle hf
  · exact .inl ⟨hpc, rfl, rfl⟩
  · exact .inr ⟨hpc, w, hw, .inl ⟨hunknown, hstrict, rfl, rfl⟩⟩
  · refine .inr ⟨hpc, w, hw, .inr ?_⟩
    cases hcause with
    | overflow h => exact .inl ⟨_, hi, h, rfl, rfl⟩
    | underflow h => exact .inr (.inl ⟨hi, h, rfl, rfl⟩)
    | sprite h => exact .inr (.inr ⟨rfl, rfl, .inl ⟨_, _, _, hi, h.1, h.2⟩⟩)
    | digits h => exact .inr (.inr ⟨rfl, rfl, .inr (.inl ⟨_, hi, h⟩)⟩)
    | blockStore h => exact .inr (.inr ⟨rfl, rfl, .inr (.inr ⟨_, .inl hi, h⟩)⟩)
    | blockLoad h => exact .inr (.inr ⟨rfl, rfl, .inr (.inr ⟨_, .inr hi, h⟩)⟩)

end Sys2Proof.Machine
end

section
/-! Reset, load and the boot (70_reset_and_hazards.md R200 to R202). -/

namespace Sys2Proof.Machine

/-! ## Reset -/

/-- Settles O8: the reset action leaves the reset state but for the keypad and the model's own records. -/
theorem resetFromAnyState : Obligations.ResetFromAnyState := fun s =>
  ⟨resetAction s, perform_reset s, State.reset_reg, rfl, rfl, rfl, rfl, rfl, State.reset_readsAsReset, reset_mem_wf,
    State.reset_pixel, rfl, rfl, rfl⟩

theorem resetAction_inv (s : State) : (resetAction s).Inv where
  memory := reset_mem_wf
  depth := Nat.zero_le _
  entries := List.forall_mem_nil _
  pcBound := show (0x0200 : Word).toNat ≤ 0x10FE by decide
  haltRecord := nofun
  haltedRuns h := absurd rfl h
  firstStep _ := ⟨rfl, State.reset_reg, rfl, rfl, rfl, rfl, State.reset_pixel⟩

/-- Settles O18: the reset state is what the reset action makes of itself. -/
theorem invariantAtReset : Obligations.InvariantAtReset := resetAction_inv State.reset

/-! ## Load -/

section
variable {s : State} {bytes : List Byte} {origin : Nat}

/-- A load that fits (R201), byte by byte: the bytes copied, and what is outside them. -/
theorem load_of_fits (hwf : s.mem.wf = true) (h : origin + bytes.length ≤ 4096) :
    ∃ m, load s bytes origin = .next (s.setMem m) ∧ m.wf = true ∧
      (∀ j, j < bytes.length → m.peek (origin + j) = bytes.getD j 0) ∧
      ∀ a, a < origin ∨ origin + bytes.length ≤ a → m.peek a = s.mem.peek a := by
  obtain ⟨m, hwrite, hwf', hpeek⟩ := writeBlock_ok hwf (.inr h)
  have hload : load s bytes origin = .next (s.setMem m) := by
    rw [load, if_pos (show romFits bytes origin = true from decide_eq_true h), hwrite]
  refine ⟨m, hload, hwf', fun j hj => ?_, fun a ha => ?_⟩
  · rw [hpeek, if_pos (by omega), Nat.add_sub_cancel_left]
  · rw [hpeek, if_neg (by omega)]

theorem load_of_not_fits (h : origin + bytes.length > 4096) : load s bytes origin = .fault .romTooLarge := by
  rw [load, if_neg]
  exact mt of_decide_eq_true (Nat.not_le.2 h)

/-- While the machine boots a load is offered (R201). -/
theorem perform_load_of_booting (h : s.phase = .booting) :
    perform (.load bytes origin) s = loadAction s bytes origin :=
  perform_of_offered (decide_eq_true h)

theorem loadAction_of_next {t : State} (h : load s bytes origin = .next t) : loadAction s bytes origin = .next t := by
  rw [loadAction, h]

theorem loadAction_of_not_fits (h : origin + bytes.length > 4096) :
    loadAction s bytes origin = .next (s.emit .loadError) := by
  rw [loadAction, load_of_not_fits h]

/-- From the first step on a load is not offered (assumption 14). -/
theorem perform_load_of_running (h : s.phase = .running) : perform (.load bytes origin) s = .next s :=
  perform_of_not_offered (by rw [offered, h]; rfl)

end

/-- Settles O9: a load fits or is too large, and is offered while the machine boots only. -/
theorem loadCopiesOrRejects : Obligations.LoadCopiesOrRejects := by
  refine fun s bytes origin hwf => ⟨fun hboot hfits => ?_, fun hboot hover => ?_, perform_load_of_running, rfl⟩
  · obtain ⟨m, hload, hwf', hin, hout⟩ := load_of_fits hwf hfits
    exact ⟨s.setMem m, hload, (perform_load_of_booting hboot).trans (loadAction_of_next hload), hin, hout, hwf',
      by simp [sameOutside]⟩
  · exact ⟨load_of_not_fits hover, (perform_load_of_booting hboot).trans (loadAction_of_not_fits hover)⟩

/-! ## The boot (R202) -/

/-- The state after a reset and the host's choice of STRICT, false where it makes none (assumption 16). -/
def State.bootChoice (s : State) (choice : Option Bool) : State := (resetAction s).setStrict (choice.getD false)

theorem performAll_bootChoice (s : State) (choice : Option Bool) :
    performAll (.reset :: (choice.map Action.setStrict).toList) s = .next (s.bootChoice choice) := by
  cases choice with
  | none => rfl
  | some b => rfl

/-- Settles O10: the ROM is loaded where the reset and the choice of STRICT leave the machine, and a load changes memory
only. -/
theorem bootState : Obligations.BootState := by
  intro s choice rom hrom
  obtain ⟨m, hload, -, hin, hout⟩ :=
    load_of_fits (s := s.bootChoice choice) (bytes := rom) (origin := 0x200) reset_mem_wf (by omega)
  refine ⟨(s.bootChoice choice).setMem m, ?_, rfl, State.reset_reg, rfl, rfl, rfl, rfl, rfl, State.reset_pixel, rfl, rfl,
    hin, hout⟩
  calc performAll (.reset :: (choice.map Action.setStrict).toList ++ [.load rom]) s
      = performAll [.load rom] (s.bootChoice choice) := performAll_append (performAll_bootChoice s choice) _
    _ = perform (.load rom) (s.bootChoice choice) := performAll_singleton _ _
    _ = loadAction (s.bootChoice choice) rom 0x200 := perform_load_of_booting rfl
    _ = .next ((s.bootChoice choice).setMem m) := loadAction_of_next hload

end Sys2Proof.Machine
end

section
/-! The invariant (10_state.md R23, R24, R30; 70_reset_and_hazards.md R202). What an instruction can do to memory, the
stack and PC is one predicate, `State.Bounded`, kept by every shape of a result; the halt record comes from the causes
of a fault; the rest of the invariant is about the phase. -/

namespace Sys2Proof.Machine

/-- The part of the invariant that instructions can change. -/
structure State.Bounded (s : State) : Prop where
  /-- Memory is in its canonical form. -/
  memory : s.mem.wf = true
  /-- At most STACK_DEPTH entries (R24). -/
  depth : s.stack.length ≤ Config.stackDepth
  /-- A popped value cannot exceed 4096 (R91). -/
  entries : ∀ w ∈ s.stack, w.toNat ≤ 0x1000
  /-- The largest value PC can ever hold is 0x10FE (R23). -/
  pcBound : s.pc.toNat ≤ 0x10FE

theorem State.Inv.bounded {s : State} (h : s.Inv) : s.Bounded := ⟨h.memory, h.depth, h.entries, h.pcBound⟩

/-- Whatever state `r` answers is bounded. -/
def AnswersBounded (r : Result) : Prop := ∀ t, r = .next t → t.Bounded

/-! ## The shapes of a result -/

section
variable {s t : State}

theorem AnswersBounded.of_next (h : t.Bounded) : AnswersBounded (.next t) := by
  intro t' ht
  obtain rfl := Host.Outcome.next.inj ht
  exact h

/-- Fault entry leaves memory, the stack and PC alone (60_exceptions.md R177). -/
theorem AnswersBounded.of_raise (hs : s.Bounded) (f : Fault) : AnswersBounded (raise f s) :=
  .of_next { hs with }

theorem AnswersBounded.of_checkedThen {α : Type} {e : Except Fault α} {k : α → State} (hs : s.Bounded)
    (hk : ∀ a, e = .ok a → (k a).Bounded) : AnswersBounded (checkedThen e s k) := by
  cases e with
  | error f => exact .of_raise hs f
  | ok a => exact .of_next (hk a rfl)

theorem State.Bounded.setPc (hs : s.Bounded) {w : Word} (hw : w.toNat ≤ 0x10FE) : (s.setPc w).Bounded :=
  { hs with pcBound := hw }

theorem State.Bounded.setMem (hs : s.Bounded) {m : Memory} (hm : m.wf = true) : (s.setMem m).Bounded :=
  { hs with memory := hm }

/-- Past an instruction that could be fetched PC is at most 4094 + 4. -/
theorem pc_add_toNat_le {d : Word} (hpc : s.pc.toNat ≤ 4094) (hd : d.toNat ≤ 4) : (s.pc + d).toNat ≤ 0x1002 := by
  rw [BitVec.toNat_add]
  omega

/-- An instruction that leaves memory and the stack alone and moves PC past itself. -/
theorem State.Bounded.advanced (hs : s.Bounded) (hpc : s.pc.toNat ≤ 4094) {d : Word} (hd : d.toNat ≤ 4)
    (hmem : t.mem = s.mem) (hstack : t.stack = s.stack) (ht : t.pc = s.pc + d) : t.Bounded where
  memory := by rw [hmem]; exact hs.memory
  depth := by rw [hstack]; exact hs.depth
  entries := by rw [hstack]; exact hs.entries
  pcBound := by rw [ht]; exact (pc_add_toNat_le hpc hd).trans (by decide)

/-- An instruction that advances PC by 2, the other effects being on other parts of the state. -/
theorem State.Bounded.advance (hs : s.Bounded) (hpc : s.pc.toNat ≤ 4094) : s.advance.Bounded :=
  hs.advanced hpc (d := 2) (by decide) rfl rfl rfl

theorem State.Bounded.skipIf (hs : s.Bounded) (hpc : s.pc.toNat ≤ 4094) (c : Bool) : (s.skipIf c).Bounded := by
  cases c with
  | true => exact hs.advanced hpc (d := 4) (by decide) rfl rfl rfl
  | false => exact hs.advanced hpc (d := 2) (by decide) rfl rfl rfl

/-- CALL's new stack: one more entry, the address of an instruction that follows one in memory (R93). -/
theorem State.Bounded.setStack_push (hs : s.Bounded) (hpc : s.pc.toNat ≤ 4094) {k : List Word}
    (hk : push s.stack s.nextPc = .ok k) : (s.setStack k).Bounded := by
  rw [push_eq] at hk
  split at hk
  · next hroom =>
    obtain rfl := Except.ok.inj hk
    have hentry : s.nextPc.toNat ≤ 0x1000 := by rw [State.nextPc_eq, BitVec.toNat_add]; simp; omega
    exact ⟨hs.memory, hroom, List.forall_mem_cons.2 ⟨hentry, hs.entries⟩, hs.pcBound⟩
  · cases hk

/-- RET's new stack and PC: an entry popped, which is at most 0x1000 (R91). -/
theorem State.Bounded.setStack_pop (hs : s.Bounded) {a : Word × List Word} (ha : pop s.stack = .ok a) :
    ((s.setStack a.2).setPc a.1).Bounded := by
  cases hstack : s.stack with
  | nil => rw [hstack] at ha; cases ha
  | cons w rest =>
    rw [hstack] at ha
    obtain rfl := Except.ok.inj ha
    have hdepth := hs.depth
    have hentries := hs.entries
    rw [hstack] at hdepth hentries
    obtain ⟨hw, hrest⟩ := List.forall_mem_cons.1 hentries
    exact ⟨hs.memory, (Nat.le_succ _).trans hdepth, hrest, hw.trans (by decide)⟩

/-- A checked store keeps the canonical form (R161, R162). -/
theorem wf_of_storeBlock {m m' : Memory} {a : Nat} {bs : List Byte} (hwf : m.wf = true) (hb : bs ≠ [])
    (h : storeBlock m a bs = .ok m') : m'.wf = true := by
  obtain ⟨-, m'', hstore, hwf', -⟩ | ⟨-, hfault⟩ := storeBlock_cases hwf a hb
  · obtain rfl := Except.ok.inj (hstore.symm.trans h)
    exact hwf'
  · cases hfault.symm.trans h

end

/-! ## Every instruction -/

/-- An instruction that could be fetched keeps the bounds. -/
theorem exec_answersBounded (i : Instr) {s : State} (hs : s.Bounded) (hpc : s.pc.toNat ≤ 4094) :
    AnswersBounded (exec i s) := by
  have hadvanced {t : State} (hmem : t.mem = s.mem) (hstack : t.stack = s.stack) (ht : t.pc = s.pc + 2) : t.Bounded :=
    hs.advanced hpc (by decide) hmem hstack ht
  have htarget (nnn : Addr12) : (zextAddr nnn).toNat ≤ 0x10FE := by rw [zextAddr_toNat]; omega
  cases i with
  | jp nnn => exact .of_next (hs.setPc (htarget nnn))
  | jpV0 nnn => exact .of_next (hs.setPc (offsetTarget_toNat_le nnn _))
  | call nnn =>
    rw [exec_call_eq]
    exact .of_checkedThen hs fun k hk => (hs.setStack_push hpc hk).setPc (htarget nnn)
  | ret => rw [exec_ret_eq]; exact .of_checkedThen hs fun a ha => hs.setStack_pop ha
  | seByte _ _ | sneByte _ _ | seReg _ _ | sneReg _ _ | skp _ | sknp _ => exact .of_next (hs.skipIf hpc _)
  | ldVxK x =>
    cases hkey : s.lowestKey with
    | none => rw [exec_ldVxK_of_none hkey]; exact .of_next hs
    | some k => rw [exec_ldVxK_of_some hkey]; exact .of_next (hadvanced rfl rfl rfl)
  | ldB x =>
    rw [exec_ldB_eq]
    exact .of_checkedThen hs fun m hm =>
      (hs.setMem (wf_of_storeBlock hs.memory (bcdDigits_ne_nil _) hm)).advance hpc
  | storeRegs x =>
    rw [exec_storeRegs_eq]
    exact .of_checkedThen hs fun m hm =>
      (hs.setMem (wf_of_storeBlock hs.memory (regsUpTo_ne_nil s x) hm)).advance hpc
  | loadRegs x =>
    rw [exec_loadRegs_eq]
    exact .of_checkedThen hs fun bs _ => by
      rw [State.setRegsFrom_eq]
      exact hadvanced rfl rfl rfl
  | drw x y n => rw [exec_drw_eq]; exact .of_checkedThen hs fun rows _ => hadvanced rfl rfl rfl
  | cls | sys _ | ldI _ | addI _ | ldF _ | ldDTVx _ | ldSTVx _ | ldVxDT _ | rnd _ _ | ldByte _ _ | addByte _ _
  | ldReg _ _ | orReg _ _ | andReg _ _ | xorReg _ _ | addReg _ _ | sub _ _ | shr _ _ | subn _ _ | shl _ _ =>
    exact .of_next (hadvanced rfl rfl rfl)

/-! ## The engine's cycle -/

section
variable {s t : State}

theorem execUnknown_answersBounded (w : Word) (hs : s.Bounded) (hpc : s.pc.toNat ≤ 4094) :
    AnswersBounded (execUnknown w s) := by
  cases hstrict : s.strict with
  | true => rw [execUnknown_of_strict hstrict]; exact .of_raise hs _
  | false => rw [execUnknown_of_permissive hstrict]; exact .of_next (hs.advanced hpc (d := 2) (by decide) rfl rfl rfl)

theorem cycle_answersBounded (hrunning : s.halt = none) (hs : s.Bounded) : AnswersBounded (cycle s) := by
  obtain ⟨-, hcycle⟩ | ⟨hpc, w, -, ⟨i, -, hcycle⟩ | ⟨-, hcycle⟩⟩ := cycle_cases hrunning
  · rw [hcycle]; exact .of_raise hs _
  · rw [hcycle]; exact exec_answersBounded i hs hpc
  · rw [hcycle]; exact execUnknown_answersBounded w hs hpc

/-- Every cause of a fault records what the taxonomy allows (60_exceptions.md R170). -/
theorem faultRecordOk_of_cycle {f : Fault} (hs : s.halt = none) (h : cycle s = .next t) (hf : t.halt = some f) :
    faultRecordOk f := by
  have haddress (w : Word) : 4095 < max w.toNat 4096 ∧ max w.toNat 4096 < 65536 := by have := w.isLt; omega
  obtain ⟨-, rfl⟩ | ⟨-, w, -, ⟨hunknown, -, rfl⟩ | ⟨i, -, hcause⟩⟩ := cycle_fault_cases hs h hf
  · exact haddress s.pc
  · exact hunknown
  · cases hcause with
    | overflow _ | underflow _ => trivial
    | sprite _ | digits _ | blockStore _ | blockLoad _ => exact haddress s.i

end

/-! ## The phase -/

section
variable {parts : List Part} {s t : State}

theorem sameOutside.phase (h : sameOutside parts s t) (hp : Part.phase ∉ parts) : t.phase = s.phase := by
  obtain ⟨-, -, -, -, -, -, -, -, -, -, -, hphase, -⟩ := h
  exact hphase hp

theorem raise_sameOutside {f : Fault} (h : raise f s = .next t) : sameOutside [.halt] s t := by
  obtain rfl := Host.Outcome.next.inj h
  simp [sameOutside]

/-- The frame of an instruction, whether it faults or not: its own parts and the halt status. -/
theorem exec_sameOutside_halt {i : Instr} (hs : s.halt = none) (h : exec i s = .next t) :
    sameOutside (.halt :: mayWrite i) s t := by
  obtain ⟨f, hraise⟩ | ⟨u, hu, hkept⟩ := exec_raises_or_keeps_halt i s
  · exact sameOutside_mono (by simp) (raise_sameOutside (hraise.symm.trans h))
  · obtain rfl : u = t := Host.Outcome.next.inj (hu.symm.trans h)
    exact sameOutside_mono (List.subset_cons_self _ _) (exec_answersWithin i s u h (hkept.trans hs))

theorem execUnknown_sameOutside {w : Word} (h : execUnknown w s = .next t) :
    sameOutside [.halt, .pc, .events] s t := by
  cases hstrict : s.strict with
  | true =>
    rw [execUnknown_of_strict hstrict] at h
    exact sameOutside_mono (by simp) (raise_sameOutside h)
  | false =>
    rw [execUnknown_of_permissive hstrict] at h
    obtain rfl := Host.Outcome.next.inj h
    exact sameOutside_mono (by simp) (sameOutside_emit_advance (s := s) (.warn w))

theorem phase_not_mem_mayWrite (i : Instr) : Part.phase ∉ Part.halt :: mayWrite i := by
  cases i <;> simp [mayWrite]

/-- The engine does not touch the phase; `beginRun` does (assumption 14). -/
theorem cycle_phase (h : cycle s = .next t) : t.phase = s.phase := by
  cases hs : s.halt with
  | some f =>
    obtain rfl := Host.Outcome.next.inj ((cycle_of_halted hs).symm.trans h)
    rfl
  | none =>
    obtain ⟨-, hcycle⟩ | ⟨-, w, -, ⟨i, -, hcycle⟩ | ⟨-, hcycle⟩⟩ := cycle_cases hs
    · exact (raise_sameOutside (hcycle.symm.trans h)).phase (by simp)
    · exact (exec_sameOutside_halt hs (hcycle.symm.trans h)).phase (phase_not_mem_mayWrite i)
    · exact (execUnknown_sameOutside (hcycle.symm.trans h)).phase (by simp)

end

/-! ## Every action keeps the invariant -/

section
variable {s t : State}

/-- What the invariant does not speak of may change. -/
theorem State.Inv.setAgenda (hs : s.Inv) (g : List Action) : (s.setAgenda g).Inv := { hs with }

theorem State.Inv.setKey (hs : s.Inv) (k : BitVec 16) : (s.setKey k).Inv := { hs with }

theorem State.Inv.setStrict (hs : s.Inv) (b : Bool) : (s.setStrict b).Inv := { hs with }

theorem State.Inv.emit (hs : s.Inv) (e : Event) : (s.emit e).Inv := { hs with }

theorem State.Inv.setMem (hs : s.Inv) {m : Memory} (hm : m.wf = true) : (s.setMem m).Inv :=
  { hs with memory := hm }

/-- A timer that is 0 stays 0, which is all the boot asks of the timers. -/
theorem tick_inv (hs : s.Inv) : (tick s).Inv := by
  cases h : s.halt with
  | some f => rwa [tick_of_halted h]
  | none =>
    rw [tick_of_running h]
    refine { hs with firstStep := fun hboot => ?_ }
    obtain ⟨hpc, hreg, hi, hstack, hdt, hst, hfb⟩ := hs.firstStep hboot
    exact ⟨hpc, hreg, hi, hstack, by rw [State.setSt_dt, State.setDt_dt, hdt]; rfl, by rw [State.setSt_st, hst]; rfl, hfb⟩

theorem loadAction_inv {bytes : List Byte} {origin : Nat} (hs : s.Inv) (h : loadAction s bytes origin = .next t) :
    t.Inv := by
  by_cases hfits : origin + bytes.length ≤ 4096
  · obtain ⟨m, hload, hwf, -⟩ := load_of_fits hs.memory hfits
    obtain rfl := Host.Outcome.next.inj ((loadAction_of_next hload).symm.trans h)
    exact hs.setMem hwf
  · obtain rfl := Host.Outcome.next.inj ((loadAction_of_not_fits (Nat.not_le.1 hfits)).symm.trans h)
    exact hs.emit _

/-- A cycle of a running block past its boot: the halt record is that of its fault. -/
theorem cycle_inv (hs : s.Bounded) (hrunning : s.halt = none) (hphase : s.phase = .running)
    (h : cycle s = .next t) : t.Inv := by
  obtain ⟨hmem, hdepth, hentries, hpc⟩ := cycle_answersBounded hrunning hs t h
  have ht : t.phase = .running := (cycle_phase h).trans hphase
  exact ⟨hmem, hdepth, hentries, hpc, fun _ => faultRecordOk_of_cycle hrunning h, fun _ => ht,
    fun hboot => by cases ht.symm.trans hboot⟩

theorem perform_step_inv (hs : s.Inv) (h : perform .step s = .next t) : t.Inv := by
  rw [perform_step] at h
  cases hhalt : s.halt with
  | some f =>
    rw [beginRun_of_halted hhalt, cycle_of_halted hhalt] at h
    obtain rfl := Host.Outcome.next.inj h
    exact hs
  | none =>
    rw [beginRun_of_running hhalt] at h
    exact cycle_inv (s := s.setPhase .running) { hs.bounded with } hhalt rfl h

theorem perform_inv {a : Action} (hs : s.Inv) (h : perform a s = .next t) : t.Inv := by
  cases ho : offered a s with
  | false =>
    obtain rfl := Host.Outcome.next.inj ((perform_of_not_offered ho).symm.trans h)
    exact hs
  | true =>
    cases a with
    | step => exact perform_step_inv hs h
    | tick => obtain rfl := Host.Outcome.next.inj h; exact tick_inv hs
    | setKeys k => obtain rfl := Host.Outcome.next.inj h; exact hs.setKey k
    | reset => obtain rfl := Host.Outcome.next.inj h; exact resetAction_inv s
    | setStrict b =>
      obtain rfl := Host.Outcome.next.inj ((perform_of_offered ho).symm.trans h)
      exact hs.setStrict b
    | load bytes origin => exact loadAction_inv hs ((perform_of_offered ho).symm.trans h)

end

/-- Settles O19: a step is the engine's, or the first action due with the agenda taken further. -/
theorem stepKeepsInvariant : Obligations.StepKeepsInvariant := by
  intro s t hs h
  cases hagenda : s.agenda with
  | nil => exact perform_inv hs ((step_of_agenda_nil hagenda).symm.trans h)
  | cons a rest => exact perform_inv (hs.setAgenda rest) ((step_of_agenda_cons hagenda).symm.trans h)

end Sys2Proof.Machine
end

section
/-! What no instruction reads: ST (10_state.md R26) and the agenda, the model's own (assumption 2). One lemma over the
instructions says both; the agenda's half makes every list of actions a run of the machine. -/

namespace Sys2Proof.Machine

/-- `s` with another ST and another agenda. -/
def State.withUnread (s : State) (b : Byte) (g : List Action) : State := (s.setSt b).setAgenda g

/-- `i` runs from `s` and from `s` with another ST and another agenda: the results differ in these two only, and ST is
written in both or kept in both. -/
def IgnoresUnread (i : Instr) (s : State) (b : Byte) (g : List Action) : Prop :=
  ∃ t c, exec i s = .next t ∧ exec i (s.withUnread b g) = .next (t.withUnread c g) ∧
    t.agenda = s.agenda ∧ (c = t.st ∨ c = b ∧ t.st = s.st)

section
variable {i : Instr} {s t : State} {b : Byte} {g : List Action}

/-- An instruction that leaves ST alone. -/
theorem IgnoresUnread.of_kept (hs : exec i s = .next t) (hu : exec i (s.withUnread b g) = .next (t.withUnread b g))
    (hagenda : t.agenda = s.agenda) (hst : t.st = s.st) : IgnoresUnread i s b g :=
  ⟨t, b, hs, hu, hagenda, .inr ⟨rfl, hst⟩⟩

/-- A check and an effect that look at neither. -/
theorem IgnoresUnread.of_checked {α : Type} {e : Except Fault α} {k : α → State} (hs : exec i s = checkedThen e s k)
    (hu : exec i (s.withUnread b g) = checkedThen e (s.withUnread b g) fun a => (k a).withUnread b g)
    (hagenda : ∀ a, (k a).agenda = s.agenda) (hst : ∀ a, (k a).st = s.st) : IgnoresUnread i s b g := by
  cases e with
  | error f => exact .of_kept (t := s.setHalt (some f)) hs hu rfl rfl
  | ok a => exact .of_kept hs hu (hagenda a) (hst a)

/-- Loading a block of registers looks at neither (46_memory_block.md R163). -/
theorem State.withUnread_setRegsFrom (bs : List Byte) (s : State) (k : Nat) :
    (s.withUnread b g).setRegsFrom k bs = (s.setRegsFrom k bs).withUnread b g := by
  induction bs generalizing s k with
  | nil => rfl
  | cons c bs ih => exact ih (s.setReg (Fin.ofNat 16 k) c) (k + 1)

end

theorem ignoresUnread_loadRegs (x : Reg) (s : State) (b : Byte) (g : List Action) :
    IgnoresUnread (.loadRegs x) s b g := by
  refine .of_checked (exec_loadRegs_eq x s) ?_ (fun bs => ?_) (fun bs => ?_)
  · rw [exec_loadRegs_eq]
    simp only [State.withUnread_setRegsFrom]
    rfl
  · rw [State.setRegsFrom_eq]; rfl
  · rw [State.setRegsFrom_eq]; rfl

theorem ignoresUnread (i : Instr) (s : State) (b : Byte) (g : List Action) : IgnoresUnread i s b g := by
  cases i with
  | ldSTVx x => exact ⟨_, s.reg x, rfl, rfl, rfl, .inl rfl⟩
  | ret => exact .of_checked (exec_ret_eq s) (exec_ret_eq (s.withUnread b g)) (fun _ => rfl) fun _ => rfl
  | call nnn => exact .of_checked (exec_call_eq nnn s) (exec_call_eq nnn (s.withUnread b g)) (fun _ => rfl) fun _ => rfl
  | drw x y n =>
    exact .of_checked (exec_drw_eq x y n s) (exec_drw_eq x y n (s.withUnread b g)) (fun _ => rfl) fun _ => rfl
  | ldVxK x =>
    cases h : s.lowestKey with
    | none => exact .of_kept (exec_ldVxK_of_none h x) (exec_ldVxK_of_none (s := s.withUnread b g) h x) rfl rfl
    | some k => exact .of_kept (exec_ldVxK_of_some h x) (exec_ldVxK_of_some (s := s.withUnread b g) h x) rfl rfl
  | ldB x => exact .of_checked (exec_ldB_eq x s) (exec_ldB_eq x (s.withUnread b g)) (fun _ => rfl) fun _ => rfl
  | storeRegs x =>
    exact .of_checked (exec_storeRegs_eq x s) (exec_storeRegs_eq x (s.withUnread b g)) (fun _ => rfl) fun _ => rfl
  | loadRegs x => exact ignoresUnread_loadRegs x s b g
  | cls | sys _ | jp _ | jpV0 _ | seByte _ _ | sneByte _ _ | seReg _ _ | sneReg _ _ | skp _ | sknp _ | ldI _ | addI _
  | ldF _ | ldDTVx _ | ldVxDT _ | rnd _ _ | ldByte _ _ | addByte _ _ | ldReg _ _ | orReg _ _ | andReg _ _
  | xorReg _ _ | addReg _ _ | sub _ _ | shr _ _ | subn _ _ | shl _ _ =>
    exact .of_kept rfl rfl rfl rfl

/-- Settles O24: the two results differ in ST only, the agenda being the same. -/
theorem soundTimerIsWriteOnly : Obligations.SoundTimerIsWriteOnly := by
  intro i s t b hexec
  obtain ⟨t', c, ht, hu, hagenda, -⟩ := ignoresUnread i s b s.agenda
  obtain rfl : t' = t := Host.Outcome.next.inj (ht.symm.trans hexec)
  refine ⟨t'.withUnread c s.agenda, hu, ?_⟩
  rw [← hagenda]
  rfl

/-! ## Every interleaving is a run (60_exceptions.md R181) -/

section
variable {s t : State}

theorem exec_setAgenda {i : Instr} (h : exec i s = .next t) (g : List Action) :
    exec i (s.setAgenda g) = .next (t.setAgenda g) := by
  obtain ⟨t', c, ht, hu, -, hc⟩ := ignoresUnread i s s.st g
  obtain rfl : t' = t := Host.Outcome.next.inj (ht.symm.trans h)
  obtain rfl : c = t'.st := hc.elim id fun ⟨hb, hkept⟩ => hb.trans hkept.symm
  exact hu

theorem raise_setAgenda {f : Fault} (h : raise f s = .next t) (g : List Action) :
    raise f (s.setAgenda g) = .next (t.setAgenda g) := by
  obtain rfl := Host.Outcome.next.inj h
  rfl

theorem execUnknown_setAgenda {w : Word} (h : execUnknown w s = .next t) (g : List Action) :
    execUnknown w (s.setAgenda g) = .next (t.setAgenda g) := by
  cases hstrict : s.strict with
  | true =>
    rw [execUnknown_of_strict hstrict] at h
    rw [execUnknown_of_strict (s := s.setAgenda g) hstrict]
    exact raise_setAgenda h g
  | false =>
    rw [execUnknown_of_permissive hstrict] at h
    obtain rfl := Host.Outcome.next.inj h
    exact execUnknown_of_permissive (s := s.setAgenda g) hstrict w

theorem cycle_setAgenda (h : cycle s = .next t) (g : List Action) : cycle (s.setAgenda g) = .next (t.setAgenda g) := by
  cases hs : s.halt with
  | some f =>
    obtain rfl := Host.Outcome.next.inj ((cycle_of_halted hs).symm.trans h)
    exact cycle_of_halted (s := s.setAgenda g) hs
  | none =>
    by_cases hfetch : s.pc.toNat + 1 < Config.memSize
    · cases hd : decode (wordOfBytes (s.mem.peek s.pc.toNat) (s.mem.peek (s.pc.toNat + 1))) with
      | instr i =>
        rw [cycle_of_instr hs hfetch hd] at h
        rw [cycle_of_instr (s := s.setAgenda g) hs hfetch hd]
        exact exec_setAgenda h g
      | unknown w =>
        rw [cycle_of_unknown hs hfetch hd] at h
        rw [cycle_of_unknown (s := s.setAgenda g) hs hfetch hd]
        exact execUnknown_setAgenda h g
    · rw [cycle_of_not_fetchable hs hfetch] at h
      rw [cycle_of_not_fetchable (s := s.setAgenda g) hs hfetch]
      exact raise_setAgenda h g

theorem beginRun_setAgenda (s : State) (g : List Action) : (s.setAgenda g).beginRun = s.beginRun.setAgenda g := by
  cases h : s.halt with
  | some f => rw [beginRun_of_halted h, beginRun_of_halted (s := s.setAgenda g) h]
  | none => rw [beginRun_of_running h, beginRun_of_running (s := s.setAgenda g) h]; rfl

theorem tick_setAgenda (s : State) (g : List Action) : tick (s.setAgenda g) = (tick s).setAgenda g := by
  cases h : s.halt with
  | some f => rw [tick_of_halted h, tick_of_halted (s := s.setAgenda g) h]
  | none => rw [tick_of_running h, tick_of_running (s := s.setAgenda g) h]; rfl

theorem loadAction_setAgenda {bytes : List Byte} {origin : Nat} (h : loadAction s bytes origin = .next t)
    (g : List Action) : loadAction (s.setAgenda g) bytes origin = .next (t.setAgenda g) := by
  obtain ⟨m, hload⟩ | hload := loadAction_of_mem s.mem bytes origin
  · obtain rfl := Host.Outcome.next.inj ((hload s rfl).symm.trans h)
    exact hload (s.setAgenda g) rfl
  · obtain rfl := Host.Outcome.next.inj ((hload s rfl).symm.trans h)
    exact hload (s.setAgenda g) rfl

theorem act_setAgenda {a : Action} (h : act a s = .next t) (g : List Action) :
    act a (s.setAgenda g) = .next (t.setAgenda g) := by
  cases a with
  | step =>
    show cycle (s.setAgenda g).beginRun = _
    rw [beginRun_setAgenda]
    exact cycle_setAgenda h g
  | tick =>
    obtain rfl := Host.Outcome.next.inj h
    exact congrArg Host.Outcome.next (tick_setAgenda s g)
  | setKeys _ | reset | setStrict _ => obtain rfl := Host.Outcome.next.inj h; rfl
  | load bytes origin => exact loadAction_setAgenda h g

/-- No action looks at what comes after it (assumption 2). -/
theorem perform_setAgenda {a : Action} (h : perform a s = .next t) (g : List Action) :
    perform a (s.setAgenda g) = .next (t.setAgenda g) := by
  have hsame : offered a (s.setAgenda g) = offered a s := by cases a <;> rfl
  cases ho : offered a s with
  | true =>
    rw [perform_of_offered (hsame.trans ho)]
    exact act_setAgenda ((perform_of_offered ho).symm.trans h) g
  | false =>
    obtain rfl := Host.Outcome.next.inj ((perform_of_not_offered ho).symm.trans h)
    exact perform_of_not_offered (hsame.trans ho)

theorem perform_agenda {a : Action} (h : perform a s = .next t) : t.agenda = s.agenda := by
  obtain ⟨-, -, -, -, -, -, -, -, -, -, -, -, -, -, hagenda⟩ := perform_sameOutside h
  exact hagenda (by cases a <;> simp [agentMayWrite])

end

theorem run_succ_of_next {M : Host.Core} {s t : M.State} (h : M.step s = .next t) (k : Nat) :
    M.run (k + 1) s = M.run k t := by
  simp only [Host.Core.run, h]

theorem run_setAgenda {acts : List Action} {s : State} (hs : s.agenda = []) :
    Sys2Proof.core.run acts.length (s.setAgenda acts) = performAll acts s := by
  induction acts generalizing s with
  | nil =>
    have hsame : s.setAgenda [] = s := by rw [← hs]; rfl
    exact congrArg Host.Outcome.next hsame
  | cons a rest ih =>
    obtain ⟨t, ht⟩ := perform_answers a s
    have hrun : Sys2Proof.core.run (a :: rest).length (s.setAgenda (a :: rest)) =
        Sys2Proof.core.run rest.length (t.setAgenda rest) := run_succ_of_next (perform_setAgenda ht rest) _
    have hperform : performAll (a :: rest) s = performAll rest t := by simp only [performAll, ht]
    exact hrun.trans ((ih ((perform_agenda ht).trans hs)).trans hperform.symm)

/-- Settles O23, by induction on the actions: a step performs the first, which does not look at the others. -/
theorem agendaRunsEveryInterleaving : Obligations.AgendaRunsEveryInterleaving := fun _ _ => run_setAgenda

end Sys2Proof.Machine
end

section
/-! VF (10_state.md R21), the laws of the arithmetic (42_load_and_arithmetic.md R123, R124), and CALL with RET
(95_test_vectors.md S5). -/

namespace Sys2Proof.Machine

/-! ## Who writes VF -/

theorem flagByte_eq_zero_or_one (b : Bool) : flagByte b = 0 ∨ flagByte b = 1 := by
  cases b with
  | false => exact .inl rfl
  | true => exact .inr rfl

section
variable {s t : State}

theorem sameOutside.reg {parts : List Part} (h : sameOutside parts s t) (hp : Part.v ∉ parts) (r : Reg) :
    t.reg r = s.reg r := by
  obtain ⟨hv, -⟩ := h
  exact hv hp r

/-- An instruction that puts a flag in VF (R125). -/
theorem vf_of_setRegAndFlag {i : Instr} {x : Reg} {b : Byte} {c : Bool}
    (hexec : exec i s = .next (s.setRegAndFlag x b c).advance) (h : exec i s = .next t) :
    t.reg vf = 0 ∨ t.reg vf = 1 := by
  obtain rfl := Host.Outcome.next.inj (hexec.symm.trans h)
  rw [State.advance_reg, State.setRegAndFlag_vf]
  exact flagByte_eq_zero_or_one c

theorem vf_of_drw {x y : Reg} {n : Height} (h : exec (.drw x y n) s = .next t) (hrunning : t.halt = none) :
    t.reg vf = 0 ∨ t.reg vf = 1 := by
  by_cases hover : n.val ≠ 0 ∧ s.i.toNat + n.val - 1 > 4095
  · obtain rfl := Host.Outcome.next.inj ((exec_drw_of_not_fits hover x y).symm.trans h)
    cases hrunning
  · obtain rfl := Host.Outcome.next.inj ((exec_drw_of_fits (by omega) x y).symm.trans h)
    rw [drawSprite_vf]
    exact flagByte_eq_zero_or_one _

/-- A register write leaves VF alone unless VF is its destination. -/
theorem vf_of_setReg {i : Instr} {x : Reg} {b : Byte} (hexec : exec i s = .next (s.setReg x b).advance)
    (h : exec i s = .next t) (hx : x ≠ vf) : t.reg vf = s.reg vf := by
  obtain rfl := Host.Outcome.next.inj (hexec.symm.trans h)
  exact State.setReg_reg_of_ne hx.symm s b

theorem vf_of_rnd {x : Reg} {kk : Byte} (h : exec (.rnd x kk) s = .next t) (hx : x ≠ vf) : t.reg vf = s.reg vf := by
  obtain rfl := Host.Outcome.next.inj h
  exact State.setReg_reg_of_ne hx.symm s _

theorem vf_of_ldVxK {x : Reg} (h : exec (.ldVxK x) s = .next t) (hx : x ≠ vf) : t.reg vf = s.reg vf := by
  cases hkey : s.lowestKey with
  | none =>
    obtain rfl := Host.Outcome.next.inj ((exec_ldVxK_of_none hkey x).symm.trans h)
    rfl
  | some k => exact vf_of_setReg (exec_ldVxK_of_some hkey x) h hx

/-- A block load reaches VF only with x = 15 (46_memory_block.md R163). -/
theorem vf_of_loadRegs {x : Reg} (h : exec (.loadRegs x) s = .next t) (hrunning : t.halt = none) (hx : x ≠ vf) :
    t.reg vf = s.reg vf := by
  obtain ⟨hfits, hover⟩ := blockLoad x s
  by_cases hspan : s.i.toNat + x.val ≤ 4095
  · obtain ⟨u, hu, -, hkept, -⟩ := hfits hspan
    obtain rfl : u = t := Host.Outcome.next.inj (hu.symm.trans h)
    exact hkept vf (lt_of_le_of_ne (Nat.le_of_lt_succ x.isLt) hx)
  · obtain rfl := Host.Outcome.next.inj ((hover (Nat.not_le.1 hspan)).symm.trans h)
    cases hrunning

end

/-- Settles O22: the instructions that may not write registers at all by their frame, the others by the register
write, or the flag, that is theirs. -/
theorem flagWritersAreListed : Obligations.FlagWritersAreListed := by
  intro i s t _ hexec hrunning
  have hframe := exec_answersWithin i s t hexec hrunning
  cases i with
  | addReg _ _ | sub _ _ | shr _ _ | subn _ _ | shl _ _ => exact vf_of_setRegAndFlag rfl hexec
  | drw _ _ _ => exact vf_of_drw hexec hrunning
  | ldByte _ _ | addByte _ _ | ldReg _ _ | orReg _ _ | andReg _ _ | xorReg _ _ | ldVxDT _ => exact vf_of_setReg rfl hexec
  | rnd _ _ => exact vf_of_rnd hexec
  | ldVxK _ => exact vf_of_ldVxK hexec
  | loadRegs _ => exact vf_of_loadRegs hexec hrunning
  | cls | ret | sys _ | jp _ | call _ | jpV0 _ | seByte _ _ | sneByte _ _ | seReg _ _ | sneReg _ _ | skp _ | sknp _
  | ldI _ | addI _ | ldF _ | ldDTVx _ | ldSTVx _ | ldB _ | storeRegs _ =>
    exact hframe.reg (by simp [mayWrite]) vf

/-! ## The laws of the arithmetic -/

/-- The two numbers a flagged result leaves, the destination not being VF. -/
theorem flaggedResult.numbers {i : Instr} {s t : State} {x : Reg} {n m : Nat} (h : flaggedResult i s x n m)
    (hexec : exec i s = .next t) (hx : x ≠ vf) : (t.reg x).toNat = n ∧ (t.reg vf).toNat = m := by
  obtain ⟨u, hu, hresult, hflag, -⟩ := h
  obtain rfl : u = t := Host.Outcome.next.inj (hu.symm.trans hexec)
  exact ⟨hresult hx, hflag⟩

/-- A sum is its byte and its carry. -/
theorem sum_with_carry {a b : Nat} (ha : a < 256) (hb : b < 256) :
    (a + b) % 256 + 256 * (if a + b > 255 then 1 else 0) = a + b := by
  split <;> omega

/-- A difference is its byte and its borrow. -/
theorem difference_with_borrow {a b : Nat} (ha : a < 256) (hb : b < 256) :
    (((256 + a - b) % 256 : Nat) : Int) - 256 * (1 - ((if a ≥ b then 1 else 0 : Nat) : Int)) = a - b := by
  split <;> omega

/-- Settles O45: the results and flags of O42 to O44 as numbers. -/
theorem arithmeticIdentities : Obligations.ArithmeticIdentities := by
  intro x y s t hx
  have ha := (s.reg x).isLt
  have hb := (s.reg y).isLt
  obtain ⟨hsub, hsubn⟩ := subtractionsSetNoBorrow x y s
  obtain ⟨hshr, hshl⟩ := shiftsSetBitOut x y s
  refine ⟨fun h => ?_, fun h => ?_, fun h => ?_, fun h => ?_, fun h => ?_⟩
  · obtain ⟨hresult, hflag⟩ := (addSetsCarry x y s).numbers h hx
    rw [hresult, hflag]
    exact sum_with_carry ha hb
  · obtain ⟨hresult, hflag⟩ := hsub.numbers h hx
    rw [hresult, hflag]
    exact difference_with_borrow ha hb
  · obtain ⟨hresult, hflag⟩ := hsubn.numbers h hx
    rw [hresult, hflag]
    exact difference_with_borrow hb ha
  · obtain ⟨hresult, hflag⟩ := hshr.numbers h hx
    omega
  · obtain ⟨hresult, hflag⟩ := hshl.numbers h hx
    omega

/-! ## RND -/

/-- A masked byte has no bit outside its mask. -/
theorem and_mask_and_not (b kk : Byte) : b &&& kk &&& ~~~kk = 0 := by
  rw [BitVec.and_assoc, BitVec.and_not_self]
  exact BitVec.and_zero

/-- Settles O47: RND is one register write and the count of draws. -/
theorem randomIsMasked : Obligations.RandomIsMasked := by
  intro x kk s
  have hx : ((s.setReg x (Config.randByte s.draws &&& kk)).countDraw).advance.reg x = Config.randByte s.draws &&& kk :=
    State.setReg_reg_self s x _
  refine ⟨_, rfl, hx, ?_, fun q hq => State.setReg_reg_of_ne hq s _, rfl, rfl, by simp [sameOutside]⟩
  rw [hx]
  exact and_mask_and_not _ kk

/-! ## CALL and RET -/

/-- Settles O34: RET pops the entry that CALL pushed. -/
theorem callReturnRoundTrip : Obligations.CallReturnRoundTrip := fun nnn _ hroom =>
  ⟨_, exec_call_of_lt hroom nnn, fun _ hstack => ⟨_, exec_ret_of_cons hstack, rfl, rfl⟩⟩

end Sys2Proof.Machine
end

section
/-! Memory in its canonical form (20_memory.md R50; assumption 8), stores into code (20_memory.md section 11), a block
store with the load after it (46_memory_block.md R162, R163), and a sprite drawn twice (43_display.md R131). -/

namespace Sys2Proof.Machine

/-! ## The canonical form determines the list -/

theorem Memory.wfFrom_cons {lo k : Nat} {b : Byte} {rest : Memory} :
    Memory.wfFrom lo ((k, b) :: rest) = true ↔
      lo ≤ k ∧ k < Config.memSize ∧ b ≠ background k ∧ Memory.wfFrom (k + 1) rest = true := by
  simp only [Memory.wfFrom, Bool.and_eq_true, decide_eq_true_eq, and_assoc]

/-- The first cell listed is at no address that another memory, listed from higher up, differs at. -/
theorem Memory.not_peek_eq_of_lt {lo lo' k : Nat} {b : Byte} {rest m : Memory}
    (h : Memory.wfFrom lo ((k, b) :: rest) = true) (hm : m.wfFrom lo' = true) (hk : k < lo') :
    Memory.peek ((k, b) :: rest) k ≠ m.peek k := by
  obtain ⟨-, -, hb, -⟩ := Memory.wfFrom_cons.1 h
  rw [Memory.peek_cons, if_pos rfl, Memory.peek_of_wfFrom hm hk]
  exact hb

/-- What a canonical list's tail reads as follows from what the list does. -/
theorem Memory.peek_tail_eq {k : Nat} {b : Byte} {rest rest' : Memory} (h : rest.wfFrom (k + 1) = true)
    (h' : rest'.wfFrom (k + 1) = true)
    (hpeek : ∀ a, Memory.peek ((k, b) :: rest) a = Memory.peek ((k, b) :: rest') a) (a : Nat) :
    rest.peek a = rest'.peek a := by
  by_cases ha : k = a
  · rw [Memory.peek_of_wfFrom h (by omega), Memory.peek_of_wfFrom h' (by omega)]
  · simpa only [Memory.peek_cons, if_neg ha] using hpeek a

theorem Memory.eq_of_peek_eq {m m' : Memory} {lo lo' : Nat} (h : m.wfFrom lo = true) (h' : m'.wfFrom lo' = true)
    (hpeek : ∀ a, m.peek a = m'.peek a) : m = m' := by
  induction m generalizing m' lo lo' with
  | nil =>
    cases m' with
    | nil => rfl
    | cons cell' rest' =>
      exact absurd (hpeek _).symm (Memory.not_peek_eq_of_lt (m := []) (lo' := cell'.1 + 1) h' rfl (Nat.lt_succ_self _))
  | cons cell rest ih =>
    obtain ⟨k, b⟩ := cell
    obtain ⟨-, hk, hb, hrest⟩ := Memory.wfFrom_cons.1 h
    cases m' with
    | nil => exact absurd (hpeek k) (Memory.not_peek_eq_of_lt (m := []) (lo' := k + 1) h rfl (Nat.lt_succ_self k))
    | cons cell' rest' =>
      obtain ⟨k', b'⟩ := cell'
      obtain ⟨-, hk', hb', hrest'⟩ := Memory.wfFrom_cons.1 h'
      obtain hlt | rfl | hgt := Nat.lt_trichotomy k k'
      · exact absurd (hpeek k)
          (Memory.not_peek_eq_of_lt h (Memory.wfFrom_cons.2 ⟨Nat.le_refl k', hk', hb', hrest'⟩) hlt)
      · obtain rfl : b = b' := by simpa [Memory.peek_cons] using hpeek k
        rw [ih hrest hrest' (Memory.peek_tail_eq hrest hrest' hpeek)]
      · exact absurd (hpeek k').symm
          (Memory.not_peek_eq_of_lt h' (Memory.wfFrom_cons.2 ⟨Nat.le_refl k, hk, hb, hrest⟩) hgt)

/-- Settles O28: the lists agree cell by cell, the lower first address deciding. -/
theorem canonicalMemoriesAreEqual : Obligations.CanonicalMemoriesAreEqual := fun _ _ => Memory.eq_of_peek_eq

/-! ## A store is seen by fetch -/

/-- A fetch at an address in memory answers what the bytes there are. -/
theorem fetch_setPc_of_peek {t : State} {w : Word} {bytes : Nat → Byte} (hw : w.toNat ≤ 4094)
    (h : ∀ a, t.mem.peek a = bytes a) :
    fetch (t.setPc w) = .ok (wordOfBytes (bytes w.toNat) (bytes (w.toNat + 1))) := by
  have hsize : Config.memSize = 4096 := rfl
  rw [fetch_eq, State.setPc_pc, if_pos (by omega), State.setPc_mem, h, h]

section
variable {x : Reg} {s : State}

theorem exec_storeRegs_peek (hwf : s.mem.wf = true) (h : s.i.toNat + x.val ≤ 4095) :
    ∃ t, exec (.storeRegs x) s = .next t ∧ ∀ a, t.mem.peek a = byteAfterStore s x a := by
  obtain ⟨t, ht, hin, hout, -⟩ := (blockStore x s hwf).1 h
  refine ⟨t, ht, fun a => ?_⟩
  unfold byteAfterStore
  split
  · next hspan =>
    have hval : (Fin.ofNat 16 (a - s.i.toNat)).val = a - s.i.toNat := Nat.mod_eq_of_lt (by omega)
    rw [← hin (Fin.ofNat 16 (a - s.i.toNat)) (Fin.le_def.2 (by omega)), hval]
    congr 1
    omega
  · exact hout a (by omega)

theorem exec_ldB_peek (hwf : s.mem.wf = true) (h : s.i.toNat + 2 ≤ 4095) :
    ∃ t, exec (.ldB x) s = .next t ∧ ∀ a, t.mem.peek a = byteAfterBcd s x a := by
  obtain ⟨t, ht, hhundreds, htens, hones, hout, -⟩ := (bcdStore x s hwf).1 h
  refine ⟨t, ht, fun a => ?_⟩
  have hdigit {b : Byte} {n : Nat} (hb : b.toNat = n) : b = BitVec.ofNat 8 n := by
    rw [← hb, BitVec.ofNat_toNat, BitVec.setWidth_eq]
  unfold byteAfterBcd
  split
  · next ha => rw [ha]; exact hdigit hhundreds
  · split
    · next ha => rw [ha]; exact hdigit htens
    · split
      · next ha => rw [ha]; exact hdigit hones
      · exact hout a (by omega)

end

/-- Settles O29: every byte after the store is known, and fetch reads two of them. -/
theorem storeIsSeenByFetch : Obligations.StoreIsSeenByFetch := by
  refine fun s x w hwf hw => ⟨fun hfits => ?_, fun hfits => ?_⟩
  · obtain ⟨t, ht, hpeek⟩ := exec_storeRegs_peek hwf hfits
    exact ⟨t, ht, fetch_setPc_of_peek hw hpeek⟩
  · obtain ⟨t, ht, hpeek⟩ := exec_ldB_peek (x := x) hwf hfits
    exact ⟨t, ht, fetch_setPc_of_peek hw hpeek⟩

/-- Settles O58: the load reads from the same I the bytes that O56 says the store left. -/
theorem blockStoreThenLoad : Obligations.BlockStoreThenLoad := by
  intro x s hwf hfits
  obtain ⟨t, ht, hstored, -⟩ := (blockStore x s hwf).1 hfits
  refine ⟨t, ht, fun u hmem hi => ?_⟩
  obtain ⟨w, hw, hloaded, hkept, -⟩ := (blockLoad x u).1 (by rw [hi]; exact hfits)
  refine ⟨w, hw, fun k hk => ?_, hkept⟩
  rw [hloaded k hk, hmem, hi, hstored k hk]

/-! ## A sprite drawn twice -/

section
variable {x y : Reg} {n : Height} {s t : State}

/-- The sprite's pixels depend on the two origin registers, I and memory. -/
theorem spriteCovers_congr (hx : t.reg x = s.reg x) (hy : t.reg y = s.reg y) (hi : t.i = s.i)
    (hmem : ∀ a, t.mem.peek a = s.mem.peek a) (px : Fin 64) (py : Fin 32) :
    spriteCovers t x y n px py ↔ spriteCovers s x y n px py := by
  simp only [spriteCovers, hx, hy, hi, hmem]

theorem sameOutside.index {parts : List Part} (h : sameOutside parts s t) (hp : Part.index ∉ parts) : t.i = s.i := by
  obtain ⟨-, hi, -⟩ := h
  exact hi hp

theorem sameOutside.memory {parts : List Part} (h : sameOutside parts s t) (hp : Part.memory ∉ parts) (a : Nat) :
    t.mem.peek a = s.mem.peek a := by
  obtain ⟨-, -, -, -, -, -, hmem, -⟩ := h
  exact hmem hp a

end

/-- Settles O50: both draws turn over the same pixels, which the first leaves lit where they were off. -/
theorem drawingTwiceRestores : Obligations.DrawingTwiceRestores := by
  intro x y n s hx hy hfits
  obtain ⟨t, ht, hcovered, huncovered, -, hnone, hregs, -, -, hframe⟩ := (drwXorsSprite x y n s).1 hfits
  have hi : t.i = s.i := hframe.index (by simp)
  have hsame := spriteCovers_congr (n := n) (hregs x hx) (hregs y hy) hi (hframe.memory (by simp))
  obtain ⟨u, hu, hcovered', huncovered', hcollision, -⟩ := (drwXorsSprite x y n t).1 (hi ▸ hfits)
  refine ⟨t, u, ht, hu, Framebuffer.ext_pixel fun px py => ?_, fun ⟨px, py, hcovers⟩ hoff => ⟨hnone hoff, ?_⟩⟩
  · by_cases hcovers : spriteCovers s x y n px py
    · rw [hcovered' px py ((hsame px py).2 hcovers), hcovered px py hcovers, Bool.not_not]
    · rw [huncovered' px py (mt (hsame px py).1 hcovers), huncovered px py hcovers]
  · refine hcollision ⟨px, py, (hsame px py).2 hcovers, ?_⟩
    rw [hcovered px py hcovers, hoff px py hcovers]
    rfl

end Sys2Proof.Machine
end

section
/-! Runs (60_exceptions.md R180, R181; 70_reset_and_hazards.md R201 to R203): ticks, the idle program, what a run offers,
and the delay timer running out. -/

namespace Sys2Proof.Machine

theorem performAll_cons_of_next {a : Action} {s t : State} (h : perform a s = .next t) (rest : List Action) :
    performAll (a :: rest) s = performAll rest t := by
  simp only [performAll, h]

/-! ## Ticks alone -/

theorem perform_tick_of_running {s : State} (h : s.halt = none) :
    perform .tick s = .next ((s.setDt (countDown s.dt)).setSt (countDown s.st)) := by
  rw [perform_tick, tick_of_running h]

/-- Ticks of a running block count both timers down and touch nothing else. -/
theorem performAll_ticks {s : State} (h : s.halt = none) (n : Nat) :
    ∃ d e : Byte, performAll (List.replicate n .tick) s = .next ((s.setDt d).setSt e) ∧
      d.toNat = s.dt.toNat - n ∧ e.toNat = s.st.toNat - n := by
  induction n generalizing s with
  | zero => exact ⟨s.dt, s.st, rfl, rfl, rfl⟩
  | succ n ih =>
    obtain ⟨d, e, hrest, hd, he⟩ := ih (s := (s.setDt (countDown s.dt)).setSt (countDown s.st)) h
    rw [State.setSt_dt, State.setDt_dt, countDown_toNat] at hd
    rw [State.setSt_st, countDown_toNat] at he
    exact ⟨d, e, (performAll_cons_of_next (perform_tick_of_running h) _).trans hrest, by omega, by omega⟩

/-- Settles O54, by induction on the ticks; the tone is read off the last ST. -/
theorem timersRunDownToZero : Obligations.TimersRunDownToZero := by
  intro n s h
  obtain ⟨d, e, hrun, hd, he⟩ := performAll_ticks h n
  refine ⟨_, hrun, hd, he, ?_, by simp [sameOutside]⟩
  rw [tone_eq_true_iff, State.setSt_st, he]
  omega

/-! ## The idle program (R203) -/

section
variable {s : State}

/-- The jump to its own address: a step of an idle block ends the boot and changes nothing else. -/
theorem perform_step_of_idle (h : s.idle) : perform .step s = .next (s.setPhase .running) := by
  have hsize : Config.memSize = 4096 := rfl
  obtain ⟨hrunning, hpc, nnn, hnnn, hdecode⟩ := h
  have htarget : zextAddr nnn = s.pc := BitVec.eq_of_toNat_eq ((zextAddr_toNat nnn).trans hnnn)
  have hcycle : cycle (s.setPhase .running) = exec (.jp nnn) (s.setPhase .running) :=
    cycle_of_instr hrunning (by rw [State.setPhase_pc]; omega) hdecode
  rw [perform_step, beginRun_of_running hrunning, hcycle]
  show Host.Outcome.next ((s.setPhase .running).setPc (zextAddr nnn)) = _
  rw [htarget]
  rfl

/-- An idle block after its steps and ticks: only the timers, and the phase once a step has come. -/
theorem performAll_of_idle {acts : List Action} (h : s.idle) (hacts : ∀ a ∈ acts, a = .step ∨ a = .tick) :
    ∃ d e, performAll acts s =
        .next { s with dt := d, st := e, phase := if Action.step ∈ acts then .running else s.phase } ∧
      d.toNat = s.dt.toNat - acts.count .tick ∧ e.toNat = s.st.toNat - acts.count .tick := by
  induction acts generalizing s with
  | nil => exact ⟨s.dt, s.st, rfl, rfl, rfl⟩
  | cons a rest ih =>
    obtain ⟨ha, hrest⟩ := List.forall_mem_cons.1 hacts
    obtain rfl | rfl := ha
    · obtain ⟨d, e, hrun, hd, he⟩ := ih (s := s.setPhase .running) h hrest
      refine ⟨d, e, ?_, by simpa using hd, by simpa using he⟩
      rw [performAll_cons_of_next (perform_step_of_idle h), hrun, State.setPhase_phase, ite_self,
        if_pos List.mem_cons_self]
      rfl
    · obtain ⟨d, e, hrun, hd, he⟩ := ih (s := (s.setDt (countDown s.dt)).setSt (countDown s.st)) h hrest
      rw [State.setSt_dt, State.setDt_dt, countDown_toNat] at hd
      rw [State.setSt_st, countDown_toNat] at he
      refine ⟨d, e, ?_, ?_, ?_⟩
      · rw [performAll_cons_of_next (perform_tick_of_running h.1), hrun]
        simp
      · rw [List.count_cons_self]; omega
      · rw [List.count_cons_self]; omega

end

/-- Settles O35, by induction on the actions: the jump leads back to its own address, and a tick is a tick. -/
theorem idleProgramOnlyTimersChange : Obligations.IdleProgramOnlyTimersChange := fun _ _ => performAll_of_idle

/-! ## What a run offers (R201, R202) -/

section
variable {parts : List Part} {s t : State}

theorem sameOutside.strict (h : sameOutside parts s t) (hp : Part.strict ∉ parts) : t.strict = s.strict := by
  obtain ⟨-, -, -, -, -, -, -, -, -, -, hstrict, -⟩ := h
  exact hstrict hp

/-- From the first step on, steps leave the block past its boot. -/
theorem perform_step_phase (hs : s.phase = .running) (h : perform .step s = .next t) : t.phase = .running := by
  rw [perform_step] at h
  rw [cycle_phase h]
  cases hhalt : s.halt with
  | some f => rw [beginRun_of_halted hhalt, hs]
  | none => rw [beginRun_of_running hhalt, State.setPhase_phase]

/-- Only a step or a reset moves the phase (assumption 14). -/
theorem perform_phase {a : Action} (h : perform a s = .next t) (hstep : a ≠ .step) (hreset : a ≠ .reset) :
    t.phase = s.phase := by
  refine (perform_sameOutside h).phase ?_
  cases a with
  | step => exact absurd rfl hstep
  | reset => exact absurd rfl hreset
  | tick | setKeys _ | setStrict _ | load _ _ => simp [agentMayWrite]

/-- A running block under every action but a reset: loads and choices of STRICT are not offered. -/
theorem perform_of_phase_running {a : Action} (hs : s.phase = .running) (ha : a ≠ .reset) (h : perform a s = .next t) :
    t.phase = .running ∧ t.strict = s.strict ∧ (a ≠ .step → ∀ q, t.mem.peek q = s.mem.peek q) := by
  have hframe := perform_sameOutside h
  cases a with
  | reset => exact absurd rfl ha
  | step => exact ⟨perform_step_phase hs h, hframe.strict (by simp [agentMayWrite]), fun hne => absurd rfl hne⟩
  | tick | setKeys _ =>
    exact ⟨(hframe.phase (by simp [agentMayWrite])).trans hs, hframe.strict (by simp [agentMayWrite]),
      fun _ => hframe.memory (by simp [agentMayWrite])⟩
  | setStrict _ | load _ _ =>
    obtain rfl := Host.Outcome.next.inj ((perform_of_not_offered (by rw [offered, hs]; rfl)).symm.trans h)
    exact ⟨hs, rfl, fun _ _ => rfl⟩

theorem allOffered_cons {a : Action} {rest : List Action} (ho : offered a s = true) (h : perform a s = .next t)
    (hrest : allOffered rest t = true) : allOffered (a :: rest) s = true := by
  simp only [allOffered, ho, h, hrest, Bool.and_self]

/-- A host that keeps the order of R202 asks for what is offered: outside the running stage the machine boots. -/
theorem allOffered_of_bootOrder {acts : List Action} {g : BootStage} (hg : g ≠ .running → s.phase = .booting)
    (h : bootOrder g acts = true) : allOffered acts s = true := by
  induction acts generalizing g s with
  | nil => rfl
  | cons a rest ih =>
    obtain ⟨t, ht⟩ := perform_answers a s
    have hsame := perform_phase ht
    cases a with
    | reset =>
      obtain rfl := Host.Outcome.next.inj ht
      exact allOffered_cons rfl rfl (ih (g := .fresh) (fun _ => rfl) h)
    | setKeys k =>
      exact allOffered_cons rfl ht (ih (g := g) (fun hne => (hsame nofun nofun).trans (hg hne)) h)
    | setStrict b =>
      simp only [bootOrder, Bool.and_eq_true, decide_eq_true_eq] at h
      obtain ⟨rfl, hrest⟩ := h
      have hboot := hg nofun
      exact allOffered_cons (decide_eq_true hboot) ht (ih (fun _ => (hsame nofun nofun).trans hboot) hrest)
    | load bytes origin =>
      simp only [bootOrder, Bool.and_eq_true, decide_eq_true_eq] at h
      obtain ⟨hne, hrest⟩ := h
      have hboot := hg hne
      exact allOffered_cons (decide_eq_true hboot) ht (ih (fun _ => (hsame nofun nofun).trans hboot) hrest)
    | step | tick =>
      simp only [bootOrder, Bool.and_eq_true] at h
      exact allOffered_cons rfl ht (ih (g := .running) (absurd rfl) h.2)

end

/-- Settles O59: the actions of a running block one by one, and the order of R202 by induction on the actions. -/
theorem runOffersNoLoad : Obligations.RunOffersNoLoad :=
  ⟨fun _ _ _ => perform_of_phase_running, fun _ _ _ => allOffered_of_bootOrder⟩

/-! ## Progress (R181) -/

/-- A count that never rises and falls by one again and again, until it is 0, is 0 from some moment on. -/
theorem eventually_zero {f : Nat → Nat} (hle : ∀ n, f (n + 1) ≤ f n)
    (hdown : ∀ n, ∃ m, n ≤ m ∧ f (m + 1) = f m - 1) : ∃ n, ∀ m, n ≤ m → f m = 0 := by
  have hanti : Antitone f := antitone_nat_of_succ_le hle
  have hreach : ∀ k n, f n ≤ k → ∃ n', f n' = 0 := by
    intro k
    induction k with
    | zero => exact fun n hn => ⟨n, Nat.le_zero.1 hn⟩
    | succ k ih =>
      intro n hn
      obtain ⟨m, hm, hfall⟩ := hdown n
      have hfm : f m ≤ f n := hanti hm
      exact ih (m + 1) (by omega)
  obtain ⟨n, hn⟩ := hreach (f 0) 0 (Nat.le_refl _)
  exact ⟨n, fun m hm => Nat.le_zero.1 (hn ▸ hanti hm)⟩

theorem runTo_answers (sch : Schedule) (s : State) (n : Nat) : ∃ t, runTo sch s n = .next t := by
  induction n with
  | zero => exact ⟨s, rfl⟩
  | succ n ih =>
    obtain ⟨t, ht⟩ := ih
    rw [runTo_succ ht]
    exact perform_answers (sch n) t

section
variable {s t : State}

theorem sameOutside.delay {parts : List Part} (h : sameOutside parts s t) (hp : Part.delay ∉ parts) : t.dt = s.dt := by
  obtain ⟨-, -, -, -, hdt, -⟩ := h
  exact hdt hp

/-- LD DT, Vx is the only instruction that writes DT (45_timers.md R151). -/
theorem delay_not_mem_mayWrite {i : Instr} (hi : ∀ x, i ≠ .ldDTVx x) : Part.delay ∉ Part.halt :: mayWrite i := by
  cases i with
  | ldDTVx x => exact absurd rfl (hi x)
  | _ => simp [mayWrite]

/-- A cycle of a running block leaves DT alone unless it runs LD DT, Vx. -/
theorem cycle_dt (hs : s.halt = none)
    (hne : ∀ x, decode (wordOfBytes (s.mem.peek s.pc.toNat) (s.mem.peek (s.pc.toNat + 1))) ≠ .instr (.ldDTVx x))
    (h : cycle s = .next t) : t.dt = s.dt := by
  obtain ⟨-, hcycle⟩ | ⟨-, w, rfl, ⟨i, hd, hcycle⟩ | ⟨-, hcycle⟩⟩ := cycle_cases hs
  · exact (raise_sameOutside (hcycle.symm.trans h)).delay (by simp)
  · have hi (x : Reg) : i ≠ .ldDTVx x := fun e => hne x (hd.trans (congrArg Decoded.instr e))
    exact (exec_sameOutside_halt hs (hcycle.symm.trans h)).delay (delay_not_mem_mayWrite hi)
  · exact (execUnknown_sameOutside (hcycle.symm.trans h)).delay (by simp)

theorem perform_tick_dt (hs : s.halt = none) (h : perform .tick s = .next t) : t.dt.toNat = s.dt.toNat - 1 := by
  obtain rfl := Host.Outcome.next.inj h
  exact tick_dt_toNat hs

/-- DT never rises in a running block that does not run LD DT, Vx. -/
theorem perform_dt_le {a : Action} (hs : s.halt = none) (ha : a = .step ∨ a = .tick ∨ ∃ k, a = .setKeys k)
    (hne : a = .step → ∀ x,
      decode (wordOfBytes (s.mem.peek s.pc.toNat) (s.mem.peek (s.pc.toNat + 1))) ≠ .instr (.ldDTVx x))
    (h : perform a s = .next t) : t.dt.toNat ≤ s.dt.toNat := by
  obtain rfl | rfl | ⟨k, rfl⟩ := ha
  · rw [perform_step, beginRun_of_running hs] at h
    rw [cycle_dt (s := s.setPhase .running) hs (hne rfl) h, State.setPhase_dt]
  · rw [perform_tick_dt hs h]
    exact Nat.sub_le _ _
  · obtain rfl := Host.Outcome.next.inj h
    exact Nat.le_refl _

end

/-- Settles O60: along the run DT never rises, and each of the ticks that keep coming takes it down by one. -/
theorem progressRunsDelayTimerOut : Obligations.ProgressRunsDelayTimerOut := by
  intro sch s hprogress hacts hrun
  choose t ht using runTo_answers sch s
  have hperform (n : Nat) : perform (sch n) (t n) = .next (t (n + 1)) := (runTo_succ (ht n)).symm.trans (ht (n + 1))
  have hrunning (n : Nat) : (t n).halt = none := (hrun n (t n) (ht n)).1
  have hle (n : Nat) : (t (n + 1)).dt.toNat ≤ (t n).dt.toNat :=
    perform_dt_le (hrunning n) (hacts n) (hrun n (t n) (ht n)).2 (hperform n)
  have hdown (n : Nat) : ∃ m, n ≤ m ∧ (t (m + 1)).dt.toNat = (t m).dt.toNat - 1 := by
    obtain ⟨m, hm, htick⟩ := hprogress n fun u hu => (hrun n u hu).1
    exact ⟨m, hm, perform_tick_dt (hrunning m) (htick ▸ hperform m)⟩
  obtain ⟨n, hn⟩ := eventually_zero (f := fun n => (t n).dt.toNat) hle hdown
  exact ⟨n, fun m hm => ⟨t m, ht m, BitVec.eq_of_toNat_eq (hn m hm)⟩⟩

end Sys2Proof.Machine
end
